-- ==== Sys2Proof/Word.lean ====
section
/-! DEFINITION. The widths of the values the engine handles (00_scope.md R5, 10_state.md R10). -/

namespace Sys2Proof

/-- A byte, an unsigned value `0..255` (00_scope.md section 5). -/
abbrev Byte := BitVec 8

/-- A window position, `POS_W` = 12 bits (R5). -/
abbrev Pos := BitVec 12

/-- A node index or link, `NODE_W` = 13 bits (R5); also the 13-bit copy cursors `D_K`, `D_END` (R20). -/
abbrev Node := BitVec 13

/-- A register that holds a length or stream cursor of `LEN_W` bits, 32 by default (R5; `Config.Params.lenW`, log 11). -/
abbrev Len := BitVec 32

/-- A match length or a small counter, 5 bits (R15, R18, R19). -/
abbrev Small := BitVec 5

end Sys2Proof
end

