-- ==== Sys2Proof/Config.lean ====
section
/-! DEFINITION. What is fixed for the machine: the numbers of 00_scope.md R5, the open parameters with their
default values, and the free values that stand for what the spec leaves unspecified. -/

namespace Sys2Proof.Config

/-- `N`: window capacity; positions are `0..4095` (R5). -/
def windowSize : Nat := 4096

/-- `MIRROR`: the lookahead mirror, the copy of positions `0..16` (R5, R11). -/
def mirrorSize : Nat := 17

/-- Number of elements of `TEXT`: window and mirror (R11). -/
def textSize : Nat := 4113

/-- `NNODE`: node indices, real nodes `0..4095` and roots `4096..4351` (R5, R42). -/
def nodeCount : Nat := 4352

/-- `NIL` = 4352, one past the last root index (R5, R13). -/
def nil : Node := 4352#13

/-- `F`: key length and maximum match length (R5). -/
def keyLength : Nat := 18

/-- `CB_BYTES`: size of the block buffer (R5, R19). -/
def cbSize : Nat := 17

/-- The parameters a model takes as arguments, with the values this hardware takes as defaults (R5; D2, D6, U7, U9,
U14). -/
structure Params where
  /-- `LEN_W` -/
  lenW : Nat := 32
  /-- `R_START` -/
  rStart : Nat := 4078
  /-- `SEED_LOOKBACK` -/
  seedLookback : Nat := 17
  /-- `GUARD_MULT` -/
  guardMult : Nat := 2000
  /-- `GUARD_BIAS` -/
  guardBias : Nat := 10
  deriving DecidableEq, Repr

/-- The values of the parameters the rules are written for (U7, R6), with lengths that fit the 32-bit registers of the
model (log 11). -/
def Params.legal (P : Params) : Bool :=
  decide (1 ≤ P.lenW ∧ P.lenW ≤ 32 ∧ P.rStart + 18 ≤ windowSize ∧ P.seedLookback ≤ P.rStart ∧ P.seedLookback ≤ 18)

/-- This hardware: every parameter at the value of R5. -/
def params : Params := {}

/-- The state elements whose value the spec leaves unspecified somewhere (R37, R173): the name under which a
free value is drawn. -/
inductive Elem where
  | text | wp | lson | rson | dad | matchPos | matchLen | iP | iCmp | iI | dQ
  | eR | eLen | eLast | eI | cb | cbp | mask | dflags | dB0 | dB1 | dK | dEnd
  | ip | inLim | eState | dState | inBuf | outBuf | outLen
  deriving DecidableEq, Repr

/-- A value the spec leaves open: the value element `e`, index `a`, has by draw `k` (log 2, log 3, log 4).
It has no body, so nothing can be proved of it. -/
opaque freeValue (k : Nat) (e : Elem) (a : Nat) : Nat

end Sys2Proof.Config
end

