-- ==== Sys2Proof/Syntax.lean ====
section
/-! DEFINITION. The rows of spec/opcode_table.json, one constructor each. -/

namespace Sys2Proof

/-- Every row of the opcode table: commands and reserved command codes, wire items, host actions, and the
internal operations and FSM states. Operands are those of the row; a position is a `Nat` where the rule of the
operation checks its range. -/
inductive Instr where
  /-- `CMD` = 1 (R71, R151) -/
  | cmdCompress
  /-- `CMD` = 2 (R71, R152) -/
  | cmdCompressHdr
  /-- `CMD` = 3 (R71, R153) -/
  | cmdDecompress
  /-- `CMD` = 4 (R71, R155) -/
  | cmdDecompressAll
  /-- `CMD` = 5 (R71, R156) -/
  | cmdDecompressAllHdr
  /-- `CMD` = 0, reserved (R72) -/
  | cmdReserved0
  /-- `CMD` = 6, reserved (R72) -/
  | cmdReserved6
  /-- `CMD` = 7, reserved (R72) -/
  | cmdReserved7
  /-- A control byte: bit `k` is the flag of token `k` of the block (R61) -/
  | ctrl (flags : Byte)
  /-- A LITERAL token (R63) -/
  | lit (b : Byte)
  /-- A MATCH token: window position and `lenc` = length - 3 (R64) -/
  | matchTok (pos : Pos) (lenc : BitVec 4)
  /-- The framing header: the length of the coded stream that follows (R67) -/
  | hdr (len : BitVec 32)
  /-- The host's `START` (R150) -/
  | start
  /-- `RESET` (R190) -/
  | reset
  /-- `WIN.CLEAR` (R80) -/
  | winClear
  /-- `WIN.WRITE(pos, b)` (R81) -/
  | winWrite (pos : Nat) (b : Byte)
  /-- `WIN.READ(x)`, `x` any non-negative integer (R82) -/
  | winRead (x : Nat)
  /-- `WIN.READ_LA(p, i)` (R83) -/
  | winReadLa (p i : Nat)
  /-- `WIN.PUT(b)` (R84) -/
  | winPut (b : Byte)
  /-- `IDX.INIT` (R90) -/
  | idxInit
  /-- `IDX.INSERT(r)` (R92) -/
  | idxInsert (r : Nat)
  /-- `IDX.DELETE(p)` (R98) -/
  | idxDelete (p : Nat)
  /-- `IDX.SEARCH(r)` (R100) -/
  | idxSearch (r : Nat)
  /-- `ENC.RUN` (R122) -/
  | encRun
  /-- `E_INIT` (R111) -/
  | eInit
  /-- `E_SEED_FILL` (R112) -/
  | eSeedFill
  /-- `E_SEED_INDEX` (R113) -/
  | eSeedIndex
  /-- `E_SELECT` (R114 to R116) -/
  | eSelect
  /-- `E_BLOCK` (R117) -/
  | eBlock
  /-- `E_ADVANCE` (R118) -/
  | eAdvance
  /-- `E_DRAIN` (R119) -/
  | eDrain
  /-- `E_FINAL` (R121) -/
  | eFinal
  /-- `E_END` (R110, R122) -/
  | eEnd
  /-- `DEC.RUN(bounded)` (R132) -/
  | decRun (bounded : Bool)
  /-- `D_INIT` (R131) -/
  | dInit
  /-- `D_CHECK` (R139) -/
  | dCheck
  /-- `D_FLAG` (R133) -/
  | dFlag
  /-- `D_LIT` (R134) -/
  | dLit
  /-- `D_MATCH` (R135) -/
  | dMatch
  /-- `D_COPY` (R136) -/
  | dCopy
  /-- `D_STOP` (R138) -/
  | dStop
  /-- `HDR.CHECK` (R157) -/
  | hdrCheck
  /-- `GUARD` (R154) -/
  | guard
  deriving DecidableEq, Repr

end Sys2Proof
end

