-- ==== Sys2Proof/WellFormed.lean ====
section
/-! DEFINITION. The operand ranges the rules state. A value of `Instr` outside them is no call any rule makes. -/

namespace Sys2Proof

/-- `pos` of `WIN.WRITE` is "a 12-bit position" (R81); `p` of `WIN.READ_LA` is a position and `i` in `0..17`
(R83); the operand of the index operations is a position (R102). Every other operand has its range by type. -/
def Instr.wf : Instr → Bool
  | .winWrite pos _ => decide (pos < Config.windowSize)
  | .winReadLa p i => decide (p < Config.windowSize) && decide (i < Config.keyLength)
  | .idxInsert r => decide (r < Config.windowSize)
  | .idxDelete p => decide (p < Config.windowSize)
  | .idxSearch r => decide (r < Config.windowSize)
  | .cmdCompress | .cmdCompressHdr | .cmdDecompress | .cmdDecompressAll | .cmdDecompressAllHdr
  | .cmdReserved0 | .cmdReserved6 | .cmdReserved7
  | .ctrl _ | .lit _ | .matchTok _ _ | .hdr _ | .start | .reset | .winClear | .winRead _ | .winPut _
  | .idxInit | .encRun | .eInit | .eSeedFill | .eSeedIndex | .eSelect | .eBlock | .eAdvance | .eDrain
  | .eFinal | .eEnd | .decRun _ | .dInit | .dCheck | .dFlag | .dLit | .dMatch | .dCopy | .dStop
  | .hdrCheck | .guard => true

end Sys2Proof
end

