-- ==== Sys2Proof/Decode.lean ====
section
/-! DEFINITION. The encodings of 30_encoding.md: the decoder, total on any bytes, and the encoder. The wire format
has no self-describing items (R68): what a byte is depends on the place it stands in, so the place is an argument. -/

namespace Sys2Proof

/-- Where the bytes to decode stand: the `CMD` register, or a place of the coded or framed stream (R68). -/
inductive Place where
  | cmd | ctrl | lit | matchTok | hdr
  deriving DecidableEq, Repr

/-- Why bytes are no item of their place. -/
inductive DecodeError where
  /-- Fewer bytes than the item has: the only malformed form of the wire format (R69). -/
  | truncated
  /-- A value that does not fit the 3-bit register `CMD` (R34). -/
  | commandTooWide
  deriving DecidableEq, Repr

/-- The command code table of R71 and the reserved codes of R72. -/
def decodeCmd (c : BitVec 3) : Instr :=
  match c.toNat with
  | 0 => .cmdReserved0
  | 1 => .cmdCompress
  | 2 => .cmdCompressHdr
  | 3 => .cmdDecompress
  | 4 => .cmdDecompressAll
  | 5 => .cmdDecompressAllHdr
  | 6 => .cmdReserved6
  | _ => .cmdReserved7

/-- `pos = B0 | ((B1 & 0xF0) << 4)` (R65). -/
def matchPosOf (b0 b1 : Byte) : Pos := b0.setWidth 12 ||| ((b1 &&& 0xF0#8).setWidth 12 <<< 4)

/-- `lenc = B1 & 0x0F` (R65). -/
def matchLencOf (b1 : Byte) : BitVec 4 := b1.setWidth 4

/-- `B0 = pos & 0xFF` (R66). -/
def matchB0 (pos : Pos) : Byte := pos.setWidth 8

/-- `B1 = ((pos >> 4) & 0xF0) | (length - 3)` (R66). -/
def matchB1 (pos : Pos) (lenc : BitVec 4) : Byte := ((pos >>> 4).setWidth 8 &&& 0xF0#8) ||| lenc.setWidth 8

/-- `L = B[0] | (B[1] << 8) | (B[2] << 16) | (B[3] << 24)` (R67, R157). -/
def hdrLengthOf (b0 b1 b2 b3 : Byte) : BitVec 32 :=
  b0.setWidth 32 ||| (b1.setWidth 32 <<< 8) ||| (b2.setWidth 32 <<< 16) ||| (b3.setWidth 32 <<< 24)

/-- Byte `k` of the little-endian header: `L[7:0]`, `L[15:8]`, `L[23:16]`, `L[31:24]` (R43, R67). -/
def hdrByte (len : BitVec 32) (k : Nat) : Byte := (len >>> (8 * k)).setWidth 8

/-- Reads the item of the given place from the front of the bytes and answers it with the bytes after it. -/
def decode : Place → List Byte → Except DecodeError (Instr × List Byte)
  | .cmd, b :: rest => if b.toNat < 8 then .ok (decodeCmd (b.setWidth 3), rest) else .error .commandTooWide
  | .ctrl, b :: rest => .ok (.ctrl b, rest)
  | .lit, b :: rest => .ok (.lit b, rest)
  | .matchTok, b0 :: b1 :: rest => .ok (.matchTok (matchPosOf b0 b1) (matchLencOf b1), rest)
  | .hdr, b0 :: b1 :: b2 :: b3 :: rest => .ok (.hdr (hdrLengthOf b0 b1 b2 b3), rest)
  | _, _ => .error .truncated

/-- The place and the bytes of an item; `none` for an operation of format INTERNAL, which has no encoding. -/
def encode : Instr → Option (Place × List Byte)
  | .cmdReserved0 => some (.cmd, [0#8])
  | .cmdCompress => some (.cmd, [1#8])
  | .cmdCompressHdr => some (.cmd, [2#8])
  | .cmdDecompress => some (.cmd, [3#8])
  | .cmdDecompressAll => some (.cmd, [4#8])
  | .cmdDecompressAllHdr => some (.cmd, [5#8])
  | .cmdReserved6 => some (.cmd, [6#8])
  | .cmdReserved7 => some (.cmd, [7#8])
  | .ctrl flags => some (.ctrl, [flags])
  | .lit b => some (.lit, [b])
  | .matchTok pos lenc => some (.matchTok, [matchB0 pos, matchB1 pos lenc])
  | .hdr len => some (.hdr, [hdrByte len 0, hdrByte len 1, hdrByte len 2, hdrByte len 3])
  | .start | .reset | .winClear | .winWrite _ _ | .winRead _ | .winReadLa _ _ | .winPut _
  | .idxInit | .idxInsert _ | .idxDelete _ | .idxSearch _
  | .encRun | .eInit | .eSeedFill | .eSeedIndex | .eSelect | .eBlock | .eAdvance | .eDrain | .eFinal | .eEnd
  | .decRun _ | .dInit | .dCheck | .dFlag | .dLit | .dMatch | .dCopy | .dStop | .hdrCheck | .guard => none

/-- Byte `k` of a table word: bits `8k+7 .. 8k`, the byte at offset `k`. -/
def wordByte (w k : Nat) : Byte := BitVec.ofNat 8 (w / 2 ^ (8 * k))

/-- The place whose items are as long as a table row of `nbits` bits (log 14): a word below 8 in one byte is a
value of `CMD`, any other single byte the first byte of a coded stream, a control byte. -/
def placeOfWord (nbits w : Nat) : Place :=
  if nbits ≤ 8 then (if w < 8 then .cmd else .ctrl) else if nbits ≤ 16 then .matchTok else .hdr

/-- The instruction the decoder reads from a table word, whose first byte is its low byte. -/
def decodeTableWord (nbits w : Nat) : Option Instr :=
  match decode (placeOfWord nbits w) [wordByte w 0, wordByte w 1, wordByte w 2, wordByte w 3] with
  | .ok (i, _) => some i
  | .error _ => none

end Sys2Proof
end

