-- ==== Sys2Proof/Machine/State.lean ====
section
/-! DEFINITION. The state of the engine: the complete list of 10_state.md R10, plus three fields of the model's own
(`freeCtr`, `ret`, `host`; log 3, log 12, log 6). Plain data throughout. -/

namespace Sys2Proof.Machine

/-- The top-level state, equal to `STATUS.STATE` (R22, R35). -/
inductive Top where
  | idle | busy | done | fault
  deriving DecidableEq, Repr

/-- The encoder FSM states (R110). -/
inductive EState where
  | init | seedFill | seedIndex | select | block | advance | drain | final | endRun
  deriving DecidableEq, Repr

/-- The decoder FSM states (R130). -/
inductive DState where
  | init | check | flag | lit | matchTok | copy | stop
  deriving DecidableEq, Repr

/-- The sign of a key comparison, `I_CMP` (R16, R91). -/
inductive Sign where
  | neg | zero | pos
  deriving DecidableEq, Repr

/-- `STATUS.STOP` (R35, R138); codes 6 and 7 are never produced (U17). -/
inductive StopCode where
  | complete | maxReached | inEnd | trunc | guard | badHeader
  deriving DecidableEq, Repr

/-- The fault causes of R171. -/
inductive FCode where
  /-- `F_BADCMD` (1): `START` with a reserved command code -/
  | badCmd
  /-- `F_INDEX` (2): a link array or `IN` indexed out of range -/
  | index
  /-- `F_WINDOW` (3): `TEXT` indexed out of range -/
  | window
  /-- `F_CB` (4): `CB` indexed out of range -/
  | cb
  /-- `F_LEN` (5): `OUT_LEN` would reach `2^LEN_W` -/
  | len
  deriving DecidableEq, Repr

/-- What an element nothing has written reads as: one value, or the free value of draw `k` for the array `e`. -/
inductive Fill (w : Nat) where
  | const (v : BitVec w)
  | free (k : Nat) (e : Config.Elem)
  deriving DecidableEq, Repr

/-- An array or buffer: the elements written, as address and value pairs with addresses strictly rising, over what
every other element reads as. Where that is one value, no pair holds it (`Arr.wf`, Safety.lean). For `w = 8` a pair
is a `Host.Cell`. -/
structure Arr (w : Nat) where
  fill : Fill w
  cells : List (Nat × BitVec w)
  deriving DecidableEq, Repr

/-- What an operation's `return v` hands to its caller (00_scope.md section 5; log 12). -/
inductive OpResult where
  | none
  /-- the byte read by `WIN.READ` or `WIN.READ_LA` -/
  | byte (b : Byte)
  /-- the position written by `WIN.PUT` -/
  | position (p : Pos)
  /-- the lookup result of `IDX.SEARCH` -/
  | found (pos : Pos) (len : Small)
  /-- `good` or `bad` of `HDR.CHECK` -/
  | header (good : Bool)
  /-- whether the guard trips -/
  | trips (b : Bool)
  deriving DecidableEq, Repr

/-- A move of the host (R36, R150, R190, R192; log 5, log 6). -/
inductive HostAct where
  | writeCmd (v : BitVec 3)
  | writeMaxOut (v : Len)
  | writeInLen (v : Len)
  | writeIn (a : Len) (b : Byte)
  /-- `START`, the command run to its end in one step -/
  | start
  /-- `START`, the command then run one FSM state per step -/
  | startStepped
  | reset
  /-- wait until the engine is not `BUSY` (R192) -/
  | wait
  /-- let the engine take one step -/
  | pass
  deriving DecidableEq, Repr

/-- Why the model stops with no next state. -/
inductive Fault where
  /-- Raised by an index operation whose walk never ends, which happens only on links that form a cycle: the
  engine would hang. Safe: the model stops where the engine makes no further progress (log 10). -/
  | diverges
  /-- Raised by `step` in the state `FAULT` when the host makes no more moves: nothing executes until `RESET` (R174,
  U24). Safe (log 8). -/
  | stuckInFault
  deriving DecidableEq, Repr

/-- Moves the model does not offer. -/
inductive Refusal where
  /-- An instruction without a meaning yet; raised only by `exec`. Safe. -/
  | notModelled (mnemonic : String)
  /-- A host write of `CMD`, `MAX_OUT`, `IN_LEN` or `IN` while `BUSY`: not defined by the spec (R36, R204, U15).
  Raised by `step`. Safe (log 7). -/
  | hostWriteWhileBusy
  deriving DecidableEq, Repr

end Sys2Proof.Machine

namespace Sys2Proof.Machine

/-- The complete state (R10). `TOP` and `STATUS.STATE` are one field (R22). -/
structure State where
  /-- `TEXT`, index 0..4112 (R11) -/
  text : Arr 8
  /-- `WP` (R12) -/
  wp : Pos
  /-- `LSON`, index 0..4351 (R13) -/
  lson : Arr 13
  /-- `RSON`, index 0..4351 (R13) -/
  rson : Arr 13
  /-- `DAD`, index 0..4351 (R13) -/
  dad : Arr 13
  /-- `MATCH_POS` (R15) -/
  matchPos : Pos
  /-- `MATCH_LEN` (R15) -/
  matchLen : Small
  /-- `I_P` (R16) -/
  iP : Node
  /-- `I_CMP` (R16) -/
  iCmp : Sign
  /-- `I_I` (R16) -/
  iI : Small
  /-- `D_Q` (R16) -/
  dQ : Node
  /-- `E_R` (R18) -/
  eR : Pos
  /-- `E_LEN` (R18) -/
  eLen : Small
  /-- `E_LAST` (R18) -/
  eLast : Small
  /-- `E_I` (R18) -/
  eI : Small
  /-- `CB`, index 0..16 (R19) -/
  cb : Arr 8
  /-- `CBP` (R19) -/
  cbp : Small
  /-- `MASK` (R19) -/
  mask : Byte
  /-- `DFLAGS` (R20) -/
  dflags : BitVec 16
  /-- `D_B0` (R20) -/
  dB0 : Byte
  /-- `D_B1` (R20) -/
  dB1 : Byte
  /-- `D_K` (R20) -/
  dK : Node
  /-- `D_END` (R20) -/
  dEnd : Node
  /-- `ip` (R21) -/
  ip : Len
  /-- `IN_LIM` (R21) -/
  inLim : Len
  /-- `TOP`, `STATUS.STATE` (R22, R35) -/
  top : Top
  /-- `E_STATE` (R22) -/
  eState : EState
  /-- `D_STATE` (R22) -/
  dState : DState
  /-- `IN` (R30) -/
  inBuf : Arr 8
  /-- `IN_LEN` (R31) -/
  inLen : Len
  /-- `OUT` (R32) -/
  outBuf : Arr 8
  /-- `OUT_LEN` (R33) -/
  outLen : Len
  /-- `CMD` (R34) -/
  cmd : BitVec 3
  /-- `MAX_OUT` (R34) -/
  maxOut : Len
  /-- `STATUS.STOP` (R35) -/
  stop : StopCode
  /-- `STATUS.FCODE`; `none` is code 0 (R35) -/
  fcode : Option FCode
  /-- MODEL'S OWN: the next draw of free values (log 3) -/
  freeCtr : Nat
  /-- MODEL'S OWN: the result of the last operation that returns one (log 12) -/
  ret : OpResult
  /-- MODEL'S OWN: the host's moves still to come, oldest first (log 6) -/
  host : List HostAct
  deriving DecidableEq, Repr

/-- The machine right after reset. `STATUS`, `OUT_LEN`, `CMD`, `MAX_OUT`, `IN_LEN` are as R37 and R190 say; every other
value is the model's (scalars log 1, arrays log 2, the three fields of its own log 3, log 12, log 6). -/
def State.reset : State where
  text := { fill := .free 0 .text, cells := [] }
  wp := 0
  lson := { fill := .free 0 .lson, cells := [] }
  rson := { fill := .free 0 .rson, cells := [] }
  dad := { fill := .free 0 .dad, cells := [] }
  matchPos := 0
  matchLen := 0
  iP := 0
  iCmp := .zero
  iI := 0
  dQ := 0
  eR := 0
  eLen := 0
  eLast := 0
  eI := 0
  cb := { fill := .free 0 .cb, cells := [] }
  cbp := 0
  mask := 0
  dflags := 0
  dB0 := 0
  dB1 := 0
  dK := 0
  dEnd := 0
  ip := 0
  inLim := 0
  top := .idle
  eState := .init
  dState := .init
  inBuf := { fill := .free 0 .inBuf, cells := [] }
  inLen := 0
  outBuf := { fill := .free 0 .outBuf, cells := [] }
  outLen := 0
  cmd := 0
  maxOut := 0
  stop := .complete
  fcode := none
  freeCtr := 1
  ret := .none
  host := []

end Sys2Proof.Machine
end

