-- ==== Sys2Proof/Machine/Ops.lean ====
section
/-! DEFINITION. The shared operations: arrays, the sequencing of statements with `raise Fault`, taking a fault, and the
named accesses to every address space of 20_memory.md R40. -/

namespace Sys2Proof.Machine

/-! ### Arrays -/

/-- What an element that no pair lists reads as. -/
def Fill.read {w : Nat} : Fill w → Nat → BitVec w
  | .const v, _ => v
  | .free k e, a => BitVec.ofNat w (Config.freeValue k e a)

/-- Whether `v` is known to be what an unlisted element reads as, so that it is not listed. -/
def Fill.absorbs {w : Nat} : Fill w → BitVec w → Bool
  | .const u, v => decide (u = v)
  | .free _ _, _ => false

/-- The value listed for address `a`, or `d`. -/
def lookupCell {w : Nat} (a : Nat) (d : BitVec w) : List (Nat × BitVec w) → BitVec w
  | [] => d
  | (b, v) :: rest => if a = b then v else lookupCell a d rest

/-- The pairs with `v` listed for `a`, addresses still rising. -/
def insertCell {w : Nat} (a : Nat) (v : BitVec w) : List (Nat × BitVec w) → List (Nat × BitVec w)
  | [] => [(a, v)]
  | (b, u) :: rest =>
    if a = b then (a, v) :: rest else if a < b then (a, v) :: (b, u) :: rest else (b, u) :: insertCell a v rest

/-- The pairs without the one for `a`. -/
def eraseCell {w : Nat} (a : Nat) : List (Nat × BitVec w) → List (Nat × BitVec w)
  | [] => []
  | (b, u) :: rest => if a = b then eraseCell a rest else (b, u) :: eraseCell a rest

/-- Element `a`. -/
def Arr.read {w : Nat} (m : Arr w) (a : Nat) : BitVec w := lookupCell a (m.fill.read a) m.cells

/-- The array with element `a` holding `v`, in the one form (a value every unlisted element has is not listed). -/
def Arr.write {w : Nat} (m : Arr w) (a : Nat) (v : BitVec w) : Arr w :=
  { m with cells := if m.fill.absorbs v then eraseCell a m.cells else insertCell a v m.cells }

/-- Every element holds `v`. -/
def Arr.all {w : Nat} (v : BitVec w) : Arr w := { fill := .const v, cells := [] }

/-- Every element is a free value of draw `k`. -/
def Arr.free {w : Nat} (k : Nat) (e : Config.Elem) : Arr w := { fill := .free k e, cells := [] }

/-- Elements `lo .. lo+n-1` set to `v`; the writes go to distinct elements, so their order shows nowhere. -/
def Arr.writeRange {w : Nat} (lo : Nat) (v : BitVec w) : Nat → Arr w → Arr w
  | 0, m => m
  | n + 1, m => Arr.writeRange lo v n (m.write (lo + n) v)

/-! ### Statements -/

/-- Why a sequence of statements ends before its last one. -/
inductive Halt where
  /-- `raise Fault(code)` (R173) -/
  | raise (c : FCode)
  /-- a walk over links that never ends (log 10) -/
  | diverge
  deriving DecidableEq, Repr

/-- A sequence of statements of the rules: it reads and writes the state and ends with a value, or early; the state
at an early end is the one the last executed statement left (R173). -/
abbrev Op (α : Type) := EStateM Halt State α

/-- The state, to read registers from. -/
def getS : Op State := fun s => .ok s s

/-- `REG <- v`, as an update of the state. -/
def upd (f : State → State) : Op Unit := fun s => .ok () (f s)

/-- `raise Fault(code)`. -/
def raise {α : Type} (c : FCode) : Op α := fun s => .error (.raise c) s

/-- A walk that never ends. -/
def diverge {α : Type} : Op α := fun s => .error .diverge s

/-- `if c: m`, a statement without an else branch. -/
def whenOp (c : Bool) (m : Op Unit) : Op Unit := fun s => if c then m s else .ok () s

/-! ### Taking a fault and returning from one -/

/-- Fault entry (R173): `STATUS.FCODE` takes the code, `TOP` becomes `FAULT`; internal state stays as the faulting
statement left it. `OUT` and `OUT_LEN` are any value after a fault (R173, U24): free values (log 4). -/
def takeFault (c : FCode) (s : State) : State :=
  { s with
    fcode := some c
    top := .fault
    outBuf := Arr.free s.freeCtr .outBuf
    outLen := BitVec.ofNat 32 (Config.freeValue s.freeCtr .outLen 0)
    freeCtr := s.freeCtr + 1 }

/-- The sign a free value stands for. -/
def signOfNat (n : Nat) : Sign := match n % 3 with | 0 => .neg | 1 => .zero | _ => .pos

/-- The encoder state a free value stands for. -/
def eStateOfNat (n : Nat) : EState :=
  match n % 9 with
  | 0 => .init | 1 => .seedFill | 2 => .seedIndex | 3 => .select | 4 => .block | 5 => .advance | 6 => .drain
  | 7 => .final | _ => .endRun

/-- The decoder state a free value stands for. -/
def dStateOfNat (n : Nat) : DState :=
  match n % 7 with
  | 0 => .init | 1 => .check | 2 => .flag | 3 => .lit | 4 => .matchTok | 5 => .copy | _ => .stop

/-- `RESET` (R190), the only way out of `FAULT` (R174). Every element R37 calls unspecified is a free value (log 3)
but `IN`, which the engine does not clear (log 21). -/
def resetState (s : State) : State :=
  let k := s.freeCtr
  { s with
    top := .idle
    stop := .complete
    fcode := none
    outLen := 0
    cmd := 0
    maxOut := 0
    inLen := 0
    text := Arr.free k .text
    wp := BitVec.ofNat 12 (Config.freeValue k .wp 0)
    lson := Arr.free k .lson
    rson := Arr.free k .rson
    dad := Arr.free k .dad
    matchPos := BitVec.ofNat 12 (Config.freeValue k .matchPos 0)
    matchLen := BitVec.ofNat 5 (Config.freeValue k .matchLen 0)
    iP := BitVec.ofNat 13 (Config.freeValue k .iP 0)
    iCmp := signOfNat (Config.freeValue k .iCmp 0)
    iI := BitVec.ofNat 5 (Config.freeValue k .iI 0)
    dQ := BitVec.ofNat 13 (Config.freeValue k .dQ 0)
    eR := BitVec.ofNat 12 (Config.freeValue k .eR 0)
    eLen := BitVec.ofNat 5 (Config.freeValue k .eLen 0)
    eLast := BitVec.ofNat 5 (Config.freeValue k .eLast 0)
    eI := BitVec.ofNat 5 (Config.freeValue k .eI 0)
    cb := Arr.free k .cb
    cbp := BitVec.ofNat 5 (Config.freeValue k .cbp 0)
    mask := BitVec.ofNat 8 (Config.freeValue k .mask 0)
    dflags := BitVec.ofNat 16 (Config.freeValue k .dflags 0)
    dB0 := BitVec.ofNat 8 (Config.freeValue k .dB0 0)
    dB1 := BitVec.ofNat 8 (Config.freeValue k .dB1 0)
    dK := BitVec.ofNat 13 (Config.freeValue k .dK 0)
    dEnd := BitVec.ofNat 13 (Config.freeValue k .dEnd 0)
    ip := BitVec.ofNat 32 (Config.freeValue k .ip 0)
    inLim := BitVec.ofNat 32 (Config.freeValue k .inLim 0)
    eState := eStateOfNat (Config.freeValue k .eState 0)
    dState := dStateOfNat (Config.freeValue k .dState 0)
    outBuf := Arr.free k .outBuf
    freeCtr := k + 1 }

/-- What a sequence of statements does to the machine: a next state, which is the fault entry where a statement raises
(R173); a walk that never ends has no next state. -/
def finish {α : Type} (m : Op α) (s : State) : Host.Outcome State Fault Refusal :=
  match m s with
  | .ok _ t => .next t
  | .error (.raise c) t => .next (takeFault c t)
  | .error .diverge _ => .fault .diverges

/-- The same for an operation whose value goes to its caller (log 12). -/
def finishRet {α : Type} (m : Op α) (res : State → α → OpResult) (s : State) : Host.Outcome State Fault Refusal :=
  finish (do let a ← m; upd fun t => { t with ret := res t a }) s

/-! ### The window -/

/-- `TEXT[u]`; outside `0..4112` it is `Fault(F_WINDOW)` (00_scope.md section 5, R171). -/
def readText (u : Nat) : Op Byte := fun s =>
  if u < Config.textSize then .ok (s.text.read u) s else .error (.raise .window) s

/-- `TEXT[u] <- b`. -/
def writeText (u : Nat) (b : Byte) : Op Unit := fun s =>
  if u < Config.textSize then .ok () { s with text := s.text.write u b } else .error (.raise .window) s

/-! ### The link arrays -/

/-- The three link arrays (R13). -/
inductive Link where
  | lson | rson | dad
  deriving DecidableEq, Repr

/-- The array of a link. -/
def State.link (s : State) : Link → Arr 13
  | .lson => s.lson
  | .rson => s.rson
  | .dad => s.dad

/-- The state with one link array replaced. -/
def State.setLink (s : State) (l : Link) (m : Arr 13) : State :=
  match l with
  | .lson => { s with lson := m }
  | .rson => { s with rson := m }
  | .dad => { s with dad := m }

/-- Reads link `l` of node `i`: `Fault(F_INDEX)` for an index outside `0..4351` and for a link value above NIL
(R42, R171). -/
def readLink (l : Link) (i : Nat) : Op Node := fun s =>
  if i < Config.nodeCount then
    (if (s.link l).read i ≤ Config.nil then .ok ((s.link l).read i) s else .error (.raise .index) s)
  else .error (.raise .index) s

/-- Writes link `l` of node `i`; `Fault(F_INDEX)` for an index outside `0..4351`. -/
def writeLink (l : Link) (i : Nat) (v : Node) : Op Unit := fun s =>
  if i < Config.nodeCount then .ok () (s.setLink l ((s.link l).write i v)) else .error (.raise .index) s

/-- `SetDad(i, v)`: the parent write that is discarded at NIL (R101). -/
def setDad (i v : Node) : Op Unit := if i = Config.nil then pure () else writeLink .dad i.toNat v

/-! ### The block buffer -/

/-- `CB[i]`; outside `0..16` it is `Fault(F_CB)`. -/
def readCb (i : Nat) : Op Byte := fun s =>
  if i < Config.cbSize then .ok (s.cb.read i) s else .error (.raise .cb) s

/-- `CB[i] <- b`. -/
def writeCb (i : Nat) (b : Byte) : Op Unit := fun s =>
  if i < Config.cbSize then .ok () { s with cb := s.cb.write i b } else .error (.raise .cb) s

/-! ### The host buffers -/

/-- `InByte(a)` (R45): `Fault(F_INDEX)` for `a >= IN_LEN`. -/
def inByte (a : Nat) : Op Byte := fun s =>
  if a < s.inLen.toNat then .ok (s.inBuf.read a) s else .error (.raise .index) s

/-- `InByte(ip); ip <- ip + 1`, the one way the engine reads `IN` in a run (R21). -/
def nextByte : Op Byte := do
  let s ← getS
  let b ← inByte s.ip.toNat
  upd fun t => { t with ip := t.ip + 1 }
  pure b

/-- `MemWrite(OUT, a, 1, v)` (R46). -/
def writeOut (a : Nat) (v : Byte) : Op Unit := upd fun s => { s with outBuf := s.outBuf.write a v }

/-- `Emit(v)` (R46): appends a byte to `OUT`; `Fault(F_LEN)` where `OUT_LEN` would reach `2^LEN_W`. -/
def emit (P : Config.Params) (v : Byte) : Op Unit := fun s =>
  if 2 ^ P.lenW ≤ s.outLen.toNat + 1 then .error (.raise .len) s
  else .ok () { s with outBuf := s.outBuf.write s.outLen.toNat v, outLen := s.outLen + 1 }

end Sys2Proof.Machine
end

