-- ==== Sys2Proof/Machine/Flags.lean ====
section
/-! DEFINITION. The flag-like state of 10_state.md R23: the comparison sign, the flag cache, the control byte under
construction, and `STATUS` as one word. -/

namespace Sys2Proof.Machine

/-- `sign(a - b)` of two bytes as unsigned numbers (R91). -/
def signOf (a b : Byte) : Sign := if a < b then .neg else if a = b then .zero else .pos

/-- `0xFF00 | b`, the load of the flag cache (R133). -/
def flagLoad (b : Byte) : BitVec 16 := 0xFF00#16 ||| b.setWidth 16

/-- `DFLAGS >> 1` (R133). -/
def flagShift (f : BitVec 16) : BitVec 16 := f >>> 1

/-- Bit 8 clear: the flag cache is exhausted (R133). -/
def flagsExhausted (f : BitVec 16) : Bool := !f.getLsbD 8

/-- Bit 0: the flag of the current token, 1 for LITERAL (R23, R133). -/
def flagIsLiteral (f : BitVec 16) : Bool := f.getLsbD 0

/-- The state the flag selects (R133). -/
def flagTarget (f : BitVec 16) : DState := if flagIsLiteral f then .lit else .matchTok

/-- `(MASK << 1) & 0xFF` (R117). -/
def maskShift (m : Byte) : Byte := m <<< 1

/-- The code of `STATE` (R35). -/
def Top.code : Top → BitVec 2
  | .idle => 0
  | .busy => 1
  | .done => 2
  | .fault => 3

/-- The code of `STOP` (R35). -/
def StopCode.code : StopCode → BitVec 3
  | .complete => 0
  | .maxReached => 1
  | .inEnd => 2
  | .trunc => 3
  | .guard => 4
  | .badHeader => 5

/-- The code of `FCODE` (R171). -/
def FCode.code : FCode → BitVec 4
  | .badCmd => 1
  | .index => 2
  | .window => 3
  | .cb => 4
  | .len => 5

/-- `FCODE` as the host reads it: 0 where there is none (R35). -/
def fcodeBits : Option FCode → BitVec 4
  | none => 0
  | some c => c.code

/-- `STATUS` as the host reads it: `STATE` in bits 1:0, `STOP` in bits 4:2, `FCODE` in bits 8:5 (R35). -/
def State.status (s : State) : BitVec 9 := fcodeBits s.fcode ++ s.stop.code ++ s.top.code

end Sys2Proof.Machine
end

