-- ==== Sys2Proof/Machine/Operands.lean ====
section
/-! DEFINITION. Operand forms: circular positions, roots, and the fields of a MATCH token as the two FSMs assemble and
pack them. -/

namespace Sys2Proof.Machine

/-- `x & 4095`, the position of a non-negative integer (R82, R85). -/
def wrap (x : Nat) : Nat := x % Config.windowSize

/-- `ROOT(c) = 4096 + c` (R5, R91). -/
def root (c : Byte) : Node := 4096#13 + c.setWidth 13

/-- `D_K <- D_B0 | ((D_B1 & 0xF0) << 4)` (R135). -/
def copyStart (b0 b1 : Byte) : Node := b0.setWidth 13 ||| ((b1 &&& 0xF0#8).setWidth 13 <<< 4)

/-- `D_END <- (D_B1 & 0x0F) + 2 + D_K`, not reduced (R135). -/
def copyEnd (b0 b1 : Byte) : Node := (b1 &&& 0x0F#8).setWidth 13 + 2#13 + copyStart b0 b1

/-- `MATCH_POS[7:0]`, the first byte of a MATCH token (R116). -/
def packLow (pos : Pos) : Byte := pos.setWidth 8

/-- `(MATCH_POS[11:8] << 4) | (MATCH_LEN - 3)`, its second byte (R116). -/
def packHigh (pos : Pos) (len : Small) : Byte := ((pos >>> 8).setWidth 8 <<< 4) ||| (len - 3#5).setWidth 8

end Sys2Proof.Machine
end

