-- ==== Sys2Proof/Machine/Window.lean ====
section
/-! DEFINITION. circular_history_buffer: the WIN operations of 40_history_window.md. -/

namespace Sys2Proof.Machine

/-- `WIN.CLEAR` (R80). -/
def opWinClear : Op Unit := upd fun s => { s with text := Arr.all 0 }

/-- `WIN.WRITE(pos, b)` (R81): position and mirror element in one step. -/
def opWinWrite (pos : Nat) (b : Byte) : Op Unit :=
  if pos < Config.windowSize then do
    writeText pos b
    whenOp (decide (pos < Config.mirrorSize)) (writeText (pos + Config.windowSize) b)
  else raise .window

/-- `WIN.READ(x)` (R82). -/
def opWinRead (x : Nat) : Op Byte := readText (wrap x)

/-- `WIN.READ_LA(p, i)` (R83): unwrapped, through the mirror. -/
def opWinReadLa (p i : Nat) : Op Byte := readText (p + i)

/-- `WIN.PUT(b)` (R84): the position written is the result. -/
def opWinPut (b : Byte) : Op Pos := do
  let s ← getS
  opWinWrite s.wp.toNat b
  upd fun t => { t with wp := t.wp + 1 }
  pure s.wp

/-- WIN.CLEAR (R80). -/
def execWinClear (s : State) : Host.Outcome State Fault Refusal := finish opWinClear s

/-- WIN.WRITE (R81). -/
def execWinWrite (pos : Nat) (b : Byte) (s : State) : Host.Outcome State Fault Refusal := finish (opWinWrite pos b) s

/-- WIN.READ (R82). -/
def execWinRead (x : Nat) (s : State) : Host.Outcome State Fault Refusal :=
  finishRet (opWinRead x) (fun _ b => .byte b) s

/-- WIN.READ_LA (R83). -/
def execWinReadLa (p i : Nat) (s : State) : Host.Outcome State Fault Refusal :=
  finishRet (opWinReadLa p i) (fun _ b => .byte b) s

/-- WIN.PUT (R84). -/
def execWinPut (b : Byte) (s : State) : Host.Outcome State Fault Refusal :=
  finishRet (opWinPut b) (fun _ p => .position p) s

end Sys2Proof.Machine
end

