-- ==== Sys2Proof/Machine/Decoder.lean ====
section
/-! DEFINITION. lzss_decoder_fsm: the decoder states of 43_decoder_fsm.md, the wire items they read, and the
composition. -/

namespace Sys2Proof.Machine

/-- `STOP <- c; state <- D_STOP` (R138). -/
def stopRun (c : StopCode) : Op Unit := upd fun s => { s with stop := c, dState := .stop }

/-- Whether the output bound is reached: `bounded and OUT_LEN >= MAX_OUT` (R136, R139). -/
def boundReached (bounded : Bool) (s : State) : Bool := bounded && decide (s.maxOut ≤ s.outLen)

/-- `D_INIT` (R131). -/
def opDInit (P : Config.Params) : Op Unit := do
  opWinClear
  upd fun s => { s with wp := BitVec.ofNat 12 P.rStart }
  upd fun s => { s with dflags := 0 }
  upd fun s => { s with dState := .check }

/-- `D_CHECK` (R139). -/
def opDCheck (bounded : Bool) : Op Unit := fun s =>
  if boundReached bounded s then stopRun .maxReached s else .ok () { s with dState := .flag }

/-- The state the current flag selects (R133). -/
def selectByFlag : Op Unit := upd fun s => { s with dState := flagTarget s.dflags }

/-- `DFLAGS <- 0xFF00 | InByte(ip); ip <- ip + 1` (R133). -/
def reloadFlags : Op Unit := do
  let s ← getS
  let b ← inByte s.ip.toNat
  upd fun t => { t with dflags := flagLoad b }
  upd fun t => { t with ip := t.ip + 1 }

/-- `D_FLAG` (R133). -/
def opDFlag : Op Unit := do
  upd fun s => { s with dflags := flagShift s.dflags }
  let s ← getS
  if flagsExhausted s.dflags then
    (if s.inLim ≤ s.ip then stopRun .inEnd
     else do
      reloadFlags
      selectByFlag)
  else selectByFlag

/-- `D_LIT` (R134). -/
def opDLit (P : Config.Params) : Op Unit := do
  let s ← getS
  if s.inLim ≤ s.ip then stopRun .inEnd
  else do
    let c ← nextByte
    emit P c
    let _ ← opWinPut c
    upd fun t => { t with dState := .check }

/-- `D_MATCH` (R135); a lone last byte is not consumed. -/
def opDMatch : Op Unit := do
  let s ← getS
  if s.inLim ≤ s.ip then stopRun .inEnd
  else if s.inLim.toNat ≤ s.ip.toNat + 1 then stopRun .trunc
  else do
    let b0 ← inByte s.ip.toNat
    upd fun t => { t with dB0 := b0 }
    let b1 ← inByte (s.ip.toNat + 1)
    upd fun t => { t with dB1 := b1 }
    upd fun t => { t with ip := t.ip + 2 }
    upd fun t => { t with dK := copyStart t.dB0 t.dB1 }
    upd fun t => { t with dEnd := copyEnd t.dB0 t.dB1 }
    upd fun t => { t with dState := .copy }

/-- One copy step (R136, R200): read, emit, write, increment. -/
def copyOne (P : Config.Params) : Op Unit := do
  let s ← getS
  let c ← opWinRead s.dK.toNat
  emit P c
  let _ ← opWinPut c
  upd fun t => { t with dK := t.dK + 1 }

/-- The loop of `D_COPY`, at most the given number of rounds. -/
def copyLoop (P : Config.Params) (bounded : Bool) : Nat → Op Unit
  | 0 => pure ()
  | n + 1 => fun s =>
    whenOp (decide (s.dK ≤ s.dEnd) && !boundReached bounded s) (do
      copyOne P
      copyLoop P bounded n) s

/-- `D_COPY` (R136); `D_K` rises to `D_END`, which gives the number of rounds. -/
def opDCopy (P : Config.Params) (bounded : Bool) : Op Unit := do
  let s ← getS
  copyLoop P bounded (s.dEnd.toNat + 1 - s.dK.toNat)
  upd fun t => { t with dState := .check }

/-- One decoder state (R130). At `D_STOP` the run is over. -/
def dStateOp (P : Config.Params) (bounded : Bool) : DState → Op Unit
  | .init => opDInit P
  | .check => opDCheck bounded
  | .flag => opDFlag
  | .lit => opDLit P
  | .matchTok => opDMatch
  | .copy => opDCopy P bounded
  | .stop => pure ()

/-- State after state until `D_STOP`, at most the given number of states. -/
def decIterate (P : Config.Params) (bounded : Bool) : Nat → Op Unit
  | 0 => diverge
  | n + 1 => fun s =>
    if s.dState = .stop then .ok () s else (do dStateOp P bounded s.dState; decIterate P bounded n) s

/-- More states than a run on this many coded bytes can take: four for each token, which consumes at least one byte
(R141), and those before and after. -/
def decBound (s : State) : Nat := 4 * (s.inLim.toNat - s.ip.toNat) + 8

/-- `DEC.RUN(bounded)`: the composition of R131 to R139 (R132). -/
def opDecRun (P : Config.Params) (bounded : Bool) : Op Unit := do
  upd fun s => { s with dState := .init }
  let s ← getS
  decIterate P bounded (decBound s)

/-- The `bounded` argument of the run the current command makes: only `CMD_DECOMPRESS` is bounded (R153, R155, R156;
log 15). -/
def State.bounded (s : State) : Bool := s.cmd == 3

/-! ### Meanings -/

/-- CTRL: a control byte at `ip` becomes the flag cache, and its bit 0 selects the first token (R133). -/
def execCtrl (flags : Byte) (s : State) : Host.Outcome State Fault Refusal :=
  finish (do
    upd fun t => { t with dflags := flagLoad flags }
    upd fun t => { t with ip := t.ip + 1 }
    selectByFlag) s

/-- A LITERAL token at `ip` is emitted and put in the window (R134). -/
def opLitItem (P : Config.Params) (b : Byte) : Op Unit := do
  upd fun t => { t with ip := t.ip + 1 }
  emit P b
  let _ ← opWinPut b
  upd fun t => { t with dState := .check }

/-- LIT (R134). -/
def execLit (b : Byte) (s : State) : Host.Outcome State Fault Refusal := finish (opLitItem Config.params b) s

/-- MATCH: a MATCH token at `ip` sets the copy cursor to its position and the end index to `lenc + 2 + pos`
(R65, R135); the copy is `D_COPY` (R136). -/
def execMatchTok (pos : Pos) (lenc : BitVec 4) (s : State) : Host.Outcome State Fault Refusal :=
  finish (upd fun t =>
    { t with
      dB0 := matchB0 pos
      dB1 := matchB1 pos lenc
      ip := t.ip + 2
      dK := pos.setWidth 13
      dEnd := lenc.setWidth 13 + 2#13 + pos.setWidth 13
      dState := .copy }) s

/-- D_INIT (R131). -/
def execDInit (s : State) : Host.Outcome State Fault Refusal := finish (opDInit Config.params) s

/-- D_CHECK (R139). -/
def execDCheck (s : State) : Host.Outcome State Fault Refusal := finish (opDCheck s.bounded) s

/-- D_FLAG (R133). -/
def execDFlag (s : State) : Host.Outcome State Fault Refusal := finish opDFlag s

/-- D_LIT (R134). -/
def execDLit (s : State) : Host.Outcome State Fault Refusal := finish (opDLit Config.params) s

/-- D_MATCH (R135). -/
def execDMatch (s : State) : Host.Outcome State Fault Refusal := finish opDMatch s

/-- D_COPY (R136). -/
def execDCopy (s : State) : Host.Outcome State Fault Refusal := finish (opDCopy Config.params s.bounded) s

/-- DEC.RUN (R132). -/
def execDecRun (bounded : Bool) (s : State) : Host.Outcome State Fault Refusal :=
  finish (opDecRun Config.params bounded) s

end Sys2Proof.Machine
end

