-- ==== Sys2Proof/Machine/Index.lean ====
section
/-! DEFINITION. binary_tree_match_index: the IDX operations of 41_match_index.md, statement by statement. -/

namespace Sys2Proof.Machine

/-- The most rounds a walk over links can take without visiting a node twice; a walk that would take more follows a
cycle and never ends (R103, log 10). -/
def walkBound : Nat := 4353

/-- `IDX.INIT` (R90). -/
def opIdxInit : Op Unit := do
  upd fun s => { s with rson := Arr.writeRange 4096 Config.nil 256 s.rson }
  upd fun s => { s with lson := Arr.writeRange 4096 Config.nil 256 s.lson }
  upd fun s => { s with dad := Arr.all Config.nil }
  upd fun s => { s with matchLen := 0 }
  upd fun s => { s with matchPos := 0 }

/-! ### Insert (R92) -/

/-- The `while I_I < 18` loop of phase `compare` (R94), at most the given number of rounds. -/
def compareKeys (r : Nat) : Nat → Op Unit
  | 0 => pure ()
  | n + 1 => do
    let s ← getS
    let a ← opWinReadLa r s.iI.toNat
    let b ← opWinReadLa s.iP.toNat s.iI.toNat
    upd fun t => { t with iCmp := signOf a b }
    whenOp (signOf a b == .zero) (do
      upd fun t => { t with iI := t.iI + 1 }
      compareKeys r n)

/-- Phase `compare` (R94): `I_P` must be a real node, else `Fault(F_INDEX)` (R92). -/
def insertCompare (r : Nat) : Op Unit := do
  let s ← getS
  if s.iP.toNat < Config.windowSize then do
    upd fun t => { t with iI := 1 }
    compareKeys r (Config.keyLength - 1)
  else raise .index

/-- Points the child link of `d` that holds `old` (the right one if it does, else the left one) at `new`. -/
def redirectChild (d old new : Node) : Op Unit := do
  let x ← readLink .rson d.toNat
  if x = old then writeLink .rson d.toNat new else writeLink .lson d.toNat new

/-- Phase `replace` (R97): `r` takes the place of the node `p` with an equal key, and `p` becomes unlinked. -/
def insertReplace (r : Nat) : Op Unit := do
  let s ← getS
  let p := s.iP
  let rn : Node := BitVec.ofNat 13 r
  let d ← readLink .dad p.toNat
  writeLink .dad r d
  let l ← readLink .lson p.toNat
  writeLink .lson r l
  let q ← readLink .rson p.toNat
  writeLink .rson r q
  let l' ← readLink .lson p.toNat
  setDad l' rn
  let q' ← readLink .rson p.toNat
  setDad q' rn
  let d' ← readLink .dad p.toNat
  redirectChild d' p rn
  writeLink .dad p.toNat Config.nil

/-- Leaf attach (R96): `r` becomes the child of `I_P` on the side of `l`. -/
def insertAttach (l : Link) (r : Nat) : Op Unit := do
  let s ← getS
  writeLink l s.iP.toNat (BitVec.ofNat 13 r)
  writeLink .dad r s.iP

/-- The link phase `descend` follows: right unless the key was smaller (R93). -/
def descendSide (c : Sign) : Link := if c = .neg then .lson else .rson

/-- Phases `descend`, `compare` and `update` (R93 to R95), at most the given number of rounds. -/
def insertDescend (r : Nat) : Nat → Op Unit
  | 0 => diverge
  | n + 1 => do
    let s ← getS
    let next ← readLink (descendSide s.iCmp) s.iP.toNat
    if next = Config.nil then insertAttach (descendSide s.iCmp) r
    else do
      upd fun t => { t with iP := next }
      insertCompare r
      let t ← getS
      if t.matchLen < t.iI then do
        upd fun u => { u with matchPos := u.iP.setWidth 12, matchLen := u.iI }
        if 18 ≤ t.iI.toNat then insertReplace r else insertDescend r n
      else insertDescend r n

/-- `IDX.INSERT(r)` (R92). -/
def opIdxInsert (r : Nat) : Op Unit := do
  upd fun s => { s with iCmp := .pos }
  let c ← readText r
  upd fun s => { s with iP := root c }
  writeLink .rson r Config.nil
  writeLink .lson r Config.nil
  upd fun s => { s with matchLen := 0 }
  insertDescend r walkBound

/-! ### Delete (R98) -/

/-- `repeat: D_Q <- RSON[D_Q] until RSON[D_Q] = NIL`, at most the given number of rounds. -/
def walkRight : Nat → Op Unit
  | 0 => diverge
  | n + 1 => do
    let s ← getS
    let next ← readLink .rson s.dQ.toNat
    upd fun t => { t with dQ := next }
    let after ← readLink .rson next.toNat
    whenOp (after != Config.nil) (walkRight n)

/-- The deep predecessor is spliced out of its old place and adopts the left subtree of `p` (R98, R99 (c)). -/
def deleteSplice (p : Nat) : Op Unit := do
  walkRight walkBound
  let s ← getS
  let d ← readLink .dad s.dQ.toNat
  let l ← readLink .lson s.dQ.toNat
  writeLink .rson d.toNat l
  let l' ← readLink .lson s.dQ.toNat
  let d' ← readLink .dad s.dQ.toNat
  setDad l' d'
  let lp ← readLink .lson p
  writeLink .lson s.dQ.toNat lp
  let lp' ← readLink .lson p
  setDad lp' s.dQ

/-- The case of two children (R99 (c)). -/
def deleteTwo (p : Nat) : Op Unit := do
  let l ← readLink .lson p
  upd fun t => { t with dQ := l }
  let r ← readLink .rson l.toNat
  whenOp (r != Config.nil) (deleteSplice p)
  let s ← getS
  let rp ← readLink .rson p
  writeLink .rson s.dQ.toNat rp
  let rp' ← readLink .rson p
  setDad rp' s.dQ

/-- `D_Q` becomes the node that takes the place of `p` (R98, R99). -/
def deleteChoose (p : Nat) : Op Unit := do
  let r ← readLink .rson p
  if r = Config.nil then do
    let l ← readLink .lson p
    upd fun t => { t with dQ := l }
  else do
    let l ← readLink .lson p
    if l = Config.nil then do
      let r' ← readLink .rson p
      upd fun t => { t with dQ := r' }
    else deleteTwo p

/-- `IDX.DELETE(p)` (R98). -/
def opIdxDelete (p : Nat) : Op Unit := do
  let d ← readLink .dad p
  if d = Config.nil then pure ()
  else do
    deleteChoose p
    let s ← getS
    let d' ← readLink .dad p
    setDad s.dQ d'
    let d'' ← readLink .dad p
    redirectChild d'' (BitVec.ofNat 13 p) s.dQ
    writeLink .dad p Config.nil

/-! ### Meanings -/

/-- IDX.INIT (R90). -/
def execIdxInit (s : State) : Host.Outcome State Fault Refusal := finish opIdxInit s

/-- IDX.INSERT (R92). -/
def execIdxInsert (r : Nat) (s : State) : Host.Outcome State Fault Refusal := finish (opIdxInsert r) s

/-- IDX.DELETE (R98). -/
def execIdxDelete (p : Nat) (s : State) : Host.Outcome State Fault Refusal := finish (opIdxDelete p) s

/-- IDX.SEARCH (R100): the insert, whose lookup result is the answer (log 13). -/
def execIdxSearch (r : Nat) (s : State) : Host.Outcome State Fault Refusal :=
  finishRet (opIdxInsert r) (fun t _ => .found t.matchPos t.matchLen) s

end Sys2Proof.Machine
end

