-- ==== Sys2Proof/Machine/Encoder.lean ====
section
/-! DEFINITION. lzss_encoder_fsm: the encoder states of 42_encoder_fsm.md and their composition. -/

namespace Sys2Proof.Machine

/-- `E_INIT` (R111); `WP` = `(R_START + 18) mod 4096`. -/
def opEInit (P : Config.Params) : Op Unit := do
  opWinClear
  opIdxInit
  writeCb 0 0
  upd fun s => { s with cbp := 1, mask := 1 }
  upd fun s => { s with wp := BitVec.ofNat 12 (P.rStart + 18), eR := BitVec.ofNat 12 P.rStart, eLen := 0 }
  upd fun s => { s with eState := .seedFill }

/-- The loop of `E_SEED_FILL` (R112), at most the given number of rounds. -/
def seedFillLoop (P : Config.Params) : Nat → Op Unit
  | 0 => pure ()
  | n + 1 => fun s =>
    whenOp (decide (s.eLen.toNat < 18) && decide (s.ip < s.inLim)) (do
      let b ← inByte s.ip.toNat
      opWinWrite (P.rStart + s.eLen.toNat) b
      upd fun t => { t with ip := t.ip + 1 }
      upd fun t => { t with eLen := t.eLen + 1 }
      seedFillLoop P n) s

/-- `E_SEED_FILL` (R112); `E_LEN` rises in each round, so 18 rounds are enough. -/
def opESeedFill (P : Config.Params) : Op Unit := do
  seedFillLoop P 18
  upd fun s => { s with eState := if s.eLen = 0 then .endRun else .seedIndex }

/-- `IDX.INSERT(start - i)` for `n` successive values of `i` (R113). -/
def seedInserts (start : Nat) : Nat → Nat → Op Unit
  | 0, _ => pure ()
  | n + 1, i => do
    opIdxInsert (start - i)
    seedInserts start n (i + 1)

/-- `E_SEED_INDEX` (R113). -/
def opESeedIndex (P : Config.Params) : Op Unit := do
  seedInserts P.rStart P.seedLookback 1
  opIdxInsert P.rStart
  upd fun s => { s with eState := .select }

/-- The LITERAL branch of `E_SELECT` (R115). -/
def selectLiteral : Op Unit := do
  upd fun s => { s with matchLen := 1 }
  let flags ← readCb 0
  let s ← getS
  writeCb 0 (flags ||| s.mask)
  let b ← opWinRead s.eR.toNat
  writeCb s.cbp.toNat b
  upd fun t => { t with cbp := t.cbp + 1 }

/-- The MATCH branch of `E_SELECT` (R116). -/
def selectMatch : Op Unit := do
  let s ← getS
  writeCb s.cbp.toNat (packLow s.matchPos)
  upd fun t => { t with cbp := t.cbp + 1 }
  let t ← getS
  writeCb t.cbp.toNat (packHigh t.matchPos t.matchLen)
  upd fun u => { u with cbp := u.cbp + 1 }

/-- The choice of R114: lengths 0, 1 and 2 become a LITERAL. -/
def selectToken : Op Unit := fun s => if s.matchLen.toNat ≤ 2 then selectLiteral s else selectMatch s

/-- `E_SELECT` (R114). -/
def opESelect : Op Unit := do
  upd fun s => { s with matchLen := if s.eLen < s.matchLen then s.eLen else s.matchLen }
  selectToken
  upd fun s => { s with eState := .block }

/-- `for j = j to j+n-1: Emit(CB[j])` (R117, R121). -/
def emitBlock (P : Config.Params) : Nat → Nat → Op Unit
  | 0, _ => pure ()
  | n + 1, j => do
    let b ← readCb j
    emit P b
    emitBlock P n (j + 1)

/-- Emits the control byte and the token bytes buffered so far (R117, R121). -/
def flushBlock (P : Config.Params) : Op Unit := fun s => emitBlock P s.cbp.toNat 0 s

/-- `E_BLOCK` (R117). -/
def opEBlock (P : Config.Params) : Op Unit := do
  upd fun s => { s with mask := maskShift s.mask }
  let s ← getS
  whenOp (s.mask == 0) (do
    flushBlock P
    writeCb 0 0
    upd fun t => { t with cbp := 1 }
    upd fun t => { t with mask := 1 })
  upd fun s => { s with eState := .advance }

/-- One position of `E_ADVANCE` (R118): delete, write, advance both cursors, insert, in this order (R201). -/
def advanceOne : Op Unit := do
  let c ← nextByte
  let s ← getS
  opIdxDelete s.wp.toNat
  let _ ← opWinPut c
  upd fun t => { t with eR := t.eR + 1 }
  let t ← getS
  opIdxInsert t.eR.toNat
  upd fun u => { u with eI := u.eI + 1 }

/-- The loop of `E_ADVANCE`, at most the given number of rounds. -/
def advanceLoop : Nat → Op Unit
  | 0 => pure ()
  | n + 1 => fun s =>
    whenOp (decide (s.eI < s.eLast) && decide (s.ip < s.inLim)) (do
      advanceOne
      advanceLoop n) s

/-- `E_ADVANCE` (R118); `E_I` rises to a 5-bit bound, so 31 rounds are enough. -/
def opEAdvance : Op Unit := do
  upd fun s => { s with eLast := s.matchLen, eI := 0 }
  advanceLoop 31
  upd fun s => { s with eState := .drain }

/-- One position of `E_DRAIN` (R119). -/
def drainOne : Op Unit := do
  upd fun s => { s with eI := s.eI + 1 }
  let s ← getS
  opIdxDelete s.wp.toNat
  upd fun t => { t with wp := t.wp + 1 }
  upd fun t => { t with eR := t.eR + 1 }
  upd fun t => { t with eLen := t.eLen - 1 }
  let t ← getS
  whenOp (t.eLen != 0) (opIdxInsert t.eR.toNat)

/-- The loop of `E_DRAIN`, at most the given number of rounds. -/
def drainLoop : Nat → Op Unit
  | 0 => pure ()
  | n + 1 => fun s =>
    whenOp (decide (s.eI < s.eLast)) (do
      drainOne
      drainLoop n) s

/-- `E_DRAIN` (R119) and the loop condition of R120. -/
def opEDrain : Op Unit := do
  drainLoop 31
  upd fun s => { s with eState := if 0 < s.eLen then .select else .final }

/-- `E_FINAL` (R121). -/
def opEFinal (P : Config.Params) : Op Unit := do
  let s ← getS
  whenOp (decide (1 < s.cbp)) (flushBlock P)
  upd fun t => { t with eState := .endRun }

/-- One encoder state (R110). At `E_END` the run is over. -/
def eStateOp (P : Config.Params) : EState → Op Unit
  | .init => opEInit P
  | .seedFill => opESeedFill P
  | .seedIndex => opESeedIndex P
  | .select => opESelect
  | .block => opEBlock P
  | .advance => opEAdvance
  | .drain => opEDrain
  | .final => opEFinal P
  | .endRun => pure ()

/-- State after state until `E_END`, at most the given number of states. -/
def encIterate (P : Config.Params) : Nat → Op Unit
  | 0 => diverge
  | n + 1 => fun s =>
    if s.eState = .endRun then .ok () s else (do eStateOp P s.eState; encIterate P n) s

/-- More states than a run with this many input bytes can take: four for each turn of the main loop, which codes at
least one byte (R120, R125), and those before and after it. -/
def encBound (s : State) : Nat := 4 * (s.inLim.toNat - s.ip.toNat) + 8

/-- `ENC.RUN`: the composition of R111 to R121 (R122). -/
def opEncRun (P : Config.Params) : Op Unit := do
  upd fun s => { s with eState := .init }
  let s ← getS
  encIterate P (encBound s)

/-! ### Meanings -/

/-- E_INIT (R111). -/
def execEInit (s : State) : Host.Outcome State Fault Refusal := finish (opEInit Config.params) s

/-- E_SEED_FILL (R112). -/
def execESeedFill (s : State) : Host.Outcome State Fault Refusal := finish (opESeedFill Config.params) s

/-- E_SEED_INDEX (R113). -/
def execESeedIndex (s : State) : Host.Outcome State Fault Refusal := finish (opESeedIndex Config.params) s

/-- E_SELECT (R114 to R116). -/
def execESelect (s : State) : Host.Outcome State Fault Refusal := finish opESelect s

/-- E_BLOCK (R117). -/
def execEBlock (s : State) : Host.Outcome State Fault Refusal := finish (opEBlock Config.params) s

/-- E_ADVANCE (R118). -/
def execEAdvance (s : State) : Host.Outcome State Fault Refusal := finish opEAdvance s

/-- E_DRAIN (R119, R120). -/
def execEDrain (s : State) : Host.Outcome State Fault Refusal := finish opEDrain s

/-- E_FINAL (R121). -/
def execEFinal (s : State) : Host.Outcome State Fault Refusal := finish (opEFinal Config.params) s

/-- ENC.RUN (R122). -/
def execEncRun (s : State) : Host.Outcome State Fault Refusal := finish (opEncRun Config.params) s

end Sys2Proof.Machine
end

