-- ==== Sys2Proof/Machine/Commands.lean ====
section
/-! DEFINITION. Host commands, framing and the guard (44_commands_framing.md), `START`, `RESET`, the end states of the two
FSMs, which return control to the command, and the host's writes. -/

namespace Sys2Proof.Machine

/-! ### Framing and guard -/

/-- `HDR.CHECK` (R157): `true` is good. -/
def opHdrCheck : Op Bool := do
  let s ← getS
  if s.inLen.toNat < 4 then pure false
  else do
    let b0 ← inByte 0
    let b1 ← inByte 1
    let b2 ← inByte 2
    let b3 ← inByte 3
    upd fun t => { t with ip := 4 }
    pure (decide ((hdrLengthOf b0 b1 b2 b3).toNat = s.inLen.toNat - 4))

/-- The check of R157 for a header whose length field is already read (log 18). -/
def opHdrItem (len : BitVec 32) : Op Bool := do
  let s ← getS
  if s.inLen.toNat < 4 then pure false
  else do
    upd fun t => { t with ip := 4 }
    pure (decide (len.toNat = s.inLen.toNat - 4))

/-- The guard trips: `MAX_OUT + 10 > 2000 * IN_LEN` on integers (R154). -/
def guardTrips (P : Config.Params) (s : State) : Bool :=
  decide (P.guardMult * s.inLen.toNat < s.maxOut.toNat + P.guardBias)

/-- `GUARD` (R154). -/
def opGuard (P : Config.Params) : Op Bool := do
  let s ← getS
  pure (guardTrips P s)

/-- The header back-patch of `CMD_COMPRESS_HDR` (R152). -/
def backPatch : Op Unit := do
  let s ← getS
  let n := s.outLen.toNat - 4
  if 2 ^ 32 ≤ n then raise .len
  else do
    let len := BitVec.ofNat 32 n
    writeOut 0 (hdrByte len 0)
    writeOut 1 (hdrByte len 1)
    writeOut 2 (hdrByte len 2)
    writeOut 3 (hdrByte len 3)

/-! ### Commands -/

/-- What follows `ENC.RUN` in R151. -/
def compressTail : Op Unit := upd fun s => { s with stop := .complete }

/-- What follows `ENC.RUN` in R152. -/
def compressHdrTail : Op Unit := do
  backPatch
  upd fun s => { s with stop := .complete }

/-- `CMD_COMPRESS` (R151). -/
def opCompress (P : Config.Params) : Op Unit := do
  opEncRun P
  compressTail

/-- `CMD_COMPRESS_HDR` (R152). -/
def opCompressHdr (P : Config.Params) : Op Unit := do
  upd fun s => { s with outLen := 4 }
  opEncRun P
  compressHdrTail

/-- `CMD_DECOMPRESS` (R153). -/
def opDecompress (P : Config.Params) : Op Unit := do
  let trips ← opGuard P
  if trips then upd fun s => { s with stop := .guard } else opDecRun P true

/-- `CMD_DECOMPRESS_ALL` (R155). -/
def opDecompressAll (P : Config.Params) : Op Unit := opDecRun P false

/-- `CMD_DECOMPRESS_ALL_HDR` (R156). -/
def opDecompressAllHdr (P : Config.Params) : Op Unit := do
  let good ← opHdrCheck
  if good then opDecRun P false else upd fun s => { s with stop := .badHeader }

/-- The `case CMD of` of `START` (R150); 0, 6 and 7 are `Fault(F_BADCMD)` (R72). -/
def commandOp (P : Config.Params) (c : BitVec 3) : Op Unit :=
  match c.toNat with
  | 1 => opCompress P
  | 2 => opCompressHdr P
  | 3 => opDecompress P
  | 4 => opDecompressAll P
  | 5 => opDecompressAllHdr P
  | _ => raise .badCmd

/-- What `START` writes before the command runs (R150). `CMD`, `MAX_OUT` and `IN_LEN` are sampled by being stable while
`BUSY` (log 22). -/
def startPrologue (s : State) : State :=
  { s with top := .busy, stop := .complete, fcode := none, outLen := 0, ip := 0, inLim := s.inLen }

/-- Whether `START` is ignored (R150, R174). -/
def startIgnored (s : State) : Bool := s.top == .busy || s.top == .fault

/-- `START` (R150), the command run to its end. What the command leaves in the internal state (window, index, block
buffer, flag cache, cursors) is kept as it is until the next command writes it: the model's choice, where the spec says any
value (R180, U18; log 28). -/
def opStart (P : Config.Params) : Op Unit := fun s =>
  if startIgnored s then .ok () s
  else (do
    upd startPrologue
    commandOp P s.cmd
    upd fun t => { t with top := .done }) s

/-! ### Commands one FSM state at a time (R9; log 5) -/

/-- The command's own checks, up to the first FSM state of its run. -/
def enterCommand (P : Config.Params) (c : BitVec 3) : Op Unit :=
  match c.toNat with
  | 1 => upd fun s => { s with eState := .init }
  | 2 => upd fun s => { s with outLen := 4, eState := .init }
  | 3 => do
    let trips ← opGuard P
    if trips then upd fun s => { s with stop := .guard, top := .done } else upd fun s => { s with dState := .init }
  | 4 => upd fun s => { s with dState := .init }
  | 5 => do
    let good ← opHdrCheck
    if good then upd fun s => { s with dState := .init } else upd fun s => { s with stop := .badHeader, top := .done }
  | _ => raise .badCmd

/-- `START` (R150), leaving the command `BUSY` before the first state of its run. -/
def opStartStepped (P : Config.Params) : Op Unit := fun s =>
  if startIgnored s then .ok () s
  else (do
    upd startPrologue
    enterCommand P s.cmd) s

/-- `E_END`: control returns to the compress command that is running, which completes (R110, R151, R152, R158; log 19). -/
def opEEnd : Op Unit := fun s =>
  if s.top = .busy then
    match s.cmd.toNat with
    | 1 => (do compressTail; upd fun t => { t with top := .done }) s
    | 2 => (do compressHdrTail; upd fun t => { t with top := .done }) s
    | _ => .ok () s
  else .ok () s

/-- `D_STOP`: control returns to the decompress command that is running, which completes (R130, R138, R158; log 19). -/
def opDStop : Op Unit := fun s =>
  if s.top = .busy && (s.cmd == 3 || s.cmd == 4 || s.cmd == 5) then .ok () { s with top := .done } else .ok () s

/-! ### Host writes -/

/-- The `LEN_W` bits a length register holds. -/
def lenBits (P : Config.Params) (v : Len) : Len := BitVec.ofNat 32 (v.toNat % 2 ^ P.lenW)

/-- A host write of a register or of a byte of `IN` (R36); `none` for the other moves. -/
def hostWrite (P : Config.Params) (a : HostAct) (s : State) : Option State :=
  match a with
  | .writeCmd v => some { s with cmd := v }
  | .writeMaxOut v => some { s with maxOut := lenBits P v }
  | .writeInLen v => some { s with inLen := lenBits P v }
  | .writeIn off b => some { s with inBuf := s.inBuf.write off.toNat b }
  | .start | .startStepped | .reset | .wait | .pass => none

/-! ### Meanings -/

/-- CMD_COMPRESS (R151). -/
def execCmdCompress (s : State) : Host.Outcome State Fault Refusal := finish (opCompress Config.params) s

/-- CMD_COMPRESS_HDR (R152). -/
def execCmdCompressHdr (s : State) : Host.Outcome State Fault Refusal := finish (opCompressHdr Config.params) s

/-- CMD_DECOMPRESS (R153). -/
def execCmdDecompress (s : State) : Host.Outcome State Fault Refusal := finish (opDecompress Config.params) s

/-- CMD_DECOMPRESS_ALL (R155). -/
def execCmdDecompressAll (s : State) : Host.Outcome State Fault Refusal := finish (opDecompressAll Config.params) s

/-- CMD_DECOMPRESS_ALL_HDR (R156). -/
def execCmdDecompressAllHdr (s : State) : Host.Outcome State Fault Refusal :=
  finish (opDecompressAllHdr Config.params) s

/-- CMD_RESERVED_0 (R72): takes `Fault(F_BADCMD)`. -/
def execCmdReserved0 (s : State) : Host.Outcome State Fault Refusal := finish (raise (α := Unit) .badCmd) s

/-- CMD_RESERVED_6 (R72): takes `Fault(F_BADCMD)`. -/
def execCmdReserved6 (s : State) : Host.Outcome State Fault Refusal := finish (raise (α := Unit) .badCmd) s

/-- CMD_RESERVED_7 (R72): takes `Fault(F_BADCMD)`. -/
def execCmdReserved7 (s : State) : Host.Outcome State Fault Refusal := finish (raise (α := Unit) .badCmd) s

/-- HDR: the check of the header (R157). -/
def execHdr (len : BitVec 32) (s : State) : Host.Outcome State Fault Refusal :=
  finishRet (opHdrItem len) (fun _ good => .header good) s

/-- START (R150). -/
def execStart (s : State) : Host.Outcome State Fault Refusal := finish (opStart Config.params) s

/-- RESET (R190). -/
def execReset (s : State) : Host.Outcome State Fault Refusal := finish (upd resetState) s

/-- E_END (R110, R122). -/
def execEEnd (s : State) : Host.Outcome State Fault Refusal := finish opEEnd s

/-- D_STOP (R130, R138). -/
def execDStop (s : State) : Host.Outcome State Fault Refusal := finish opDStop s

/-- HDR.CHECK (R157). -/
def execHdrCheck (s : State) : Host.Outcome State Fault Refusal :=
  finishRet opHdrCheck (fun _ good => .header good) s

/-- GUARD (R154). -/
def execGuard (s : State) : Host.Outcome State Fault Refusal :=
  finishRet (opGuard Config.params) (fun _ trips => .trips trips) s

end Sys2Proof.Machine
end

