-- ==== Sys2Proof/Machine/Fetch.lean ====
section
/-! DEFINITION. What a `BUSY` engine executes next: the state its FSM register names, or the wire item that state reads,
fetched at `ip` and decoded (R21, R68). Also how bytes are placed for a fetch. -/

namespace Sys2Proof.Machine

/-- `n` successive bytes of a buffer. -/
def readBytes (m : Arr 8) : Nat → Nat → List Byte
  | 0, _ => []
  | n + 1, a => m.read a :: readBytes m n (a + 1)

/-- The buffer with successive bytes written. -/
def writeBytes (m : Arr 8) : Nat → List Byte → Arr 8
  | _, [] => m
  | a, b :: rest => writeBytes (m.write a b) (a + 1) rest

/-- The bytes available at `ip` (R21), at most the two of the longest item the decoder states fetch. -/
def fetchBytes (s : State) : List Byte :=
  readBytes s.inBuf (min 2 (min s.inLim.toNat s.inLen.toNat - s.ip.toNat)) s.ip.toNat

/-- The item a decoder state is about to read, if it reads one (R133 to R135). -/
def dueItem (s : State) : Option Place :=
  match s.dState with
  | .flag => if flagsExhausted (flagShift s.dflags) then some .ctrl else none
  | .lit => some .lit
  | .matchTok => some .matchTok
  | .init | .check | .copy | .stop => none

/-- The row of an encoder state (R110). -/
def eStateInstr : EState → Instr
  | .init => .eInit
  | .seedFill => .eSeedFill
  | .seedIndex => .eSeedIndex
  | .select => .eSelect
  | .block => .eBlock
  | .advance => .eAdvance
  | .drain => .eDrain
  | .final => .eFinal
  | .endRun => .eEnd

/-- The row of a decoder state (R130). -/
def dStateInstr : DState → Instr
  | .init => .dInit
  | .check => .dCheck
  | .flag => .dFlag
  | .lit => .dLit
  | .matchTok => .dMatch
  | .copy => .dCopy
  | .stop => .dStop

/-- The item at `ip` if one is due and its bytes are there, else the decoder state itself, which handles the end of
the input. -/
def decoderInstr (s : State) : Instr :=
  match dueItem s with
  | none => dStateInstr s.dState
  | some place =>
    match decode place (fetchBytes s) with
    | .ok (i, _) => i
    | .error _ => dStateInstr s.dState

/-- What a `BUSY` engine executes next (R22): the encoder FSM for commands 1 and 2, the decoder FSM for 3 to 5. No rule
leaves the engine `BUSY` with a reserved code; its row is then the one that takes the fault (R72). -/
def engineInstr (s : State) : Instr :=
  match s.cmd.toNat with
  | 1 => eStateInstr s.eState
  | 2 => eStateInstr s.eState
  | 3 => decoderInstr s
  | 4 => decoderInstr s
  | 5 => decoderInstr s
  | _ => decodeCmd s.cmd

/-- The state with `CMD` holding a command code and the host about to issue `START`. -/
def placeCommand (s : State) (c : BitVec 3) : State :=
  { s with cmd := c, top := if startIgnored s then .idle else s.top, host := .start :: s.host }

/-- The state with an unbounded decompress run about to fetch the bytes in the given decoder state. -/
def placeItem (s : State) (d : DState) (bytes : List Byte) : State :=
  { s with
    cmd := 4
    top := .busy
    dState := d
    dflags := 0
    ip := 0
    inLen := BitVec.ofNat 32 bytes.length
    inLim := BitVec.ofNat 32 bytes.length
    inBuf := writeBytes s.inBuf 0 bytes
    host := .pass :: s.host }

/-- The state with `CMD_DECOMPRESS_ALL_HDR` about to be started on the header bytes. -/
def placeHeader (s : State) (bytes : List Byte) : State :=
  { s with
    cmd := 5
    top := if startIgnored s then .idle else s.top
    inLen := BitVec.ofNat 32 bytes.length
    inBuf := writeBytes s.inBuf 0 bytes
    host := .startStepped :: s.host }

/-- The state whose next step fetches the bytes of a table word at their place (log 14). -/
def placeWord (s : State) (place : Place) (w : Nat) : State :=
  match place with
  | .cmd => placeCommand s (BitVec.ofNat 3 w)
  | .ctrl => placeItem s .flag [wordByte w 0]
  | .lit => placeItem s .lit [wordByte w 0]
  | .matchTok => placeItem s .matchTok [wordByte w 0, wordByte w 1]
  | .hdr => placeHeader s [wordByte w 0, wordByte w 1, wordByte w 2, wordByte w 3]

end Sys2Proof.Machine
end

