-- ==== Sys2Proof/Machine/Dispatch.lean ====
section
/-! DEFINITION. One arm per row of the opcode table. -/

namespace Sys2Proof.Machine

def exec (i : Instr) (s : State) : Host.Outcome State Fault Refusal :=
  match i with
  | .cmdCompress => Sys2Proof.Machine.execCmdCompress s
  | .cmdCompressHdr => Sys2Proof.Machine.execCmdCompressHdr s
  | .cmdDecompress => Sys2Proof.Machine.execCmdDecompress s
  | .cmdDecompressAll => Sys2Proof.Machine.execCmdDecompressAll s
  | .cmdDecompressAllHdr => Sys2Proof.Machine.execCmdDecompressAllHdr s
  | .cmdReserved0 => Sys2Proof.Machine.execCmdReserved0 s
  | .cmdReserved6 => Sys2Proof.Machine.execCmdReserved6 s
  | .cmdReserved7 => Sys2Proof.Machine.execCmdReserved7 s
  | .ctrl flags => Sys2Proof.Machine.execCtrl flags s
  | .lit b => Sys2Proof.Machine.execLit b s
  | .matchTok pos lenc => Sys2Proof.Machine.execMatchTok pos lenc s
  | .hdr len => Sys2Proof.Machine.execHdr len s
  | .start => Sys2Proof.Machine.execStart s
  | .reset => Sys2Proof.Machine.execReset s
  | .winClear => Sys2Proof.Machine.execWinClear s
  | .winWrite pos b => Sys2Proof.Machine.execWinWrite pos b s
  | .winRead x => Sys2Proof.Machine.execWinRead x s
  | .winReadLa p k => Sys2Proof.Machine.execWinReadLa p k s
  | .winPut b => Sys2Proof.Machine.execWinPut b s
  | .idxInit => Sys2Proof.Machine.execIdxInit s
  | .idxInsert r => Sys2Proof.Machine.execIdxInsert r s
  | .idxDelete p => Sys2Proof.Machine.execIdxDelete p s
  | .idxSearch r => Sys2Proof.Machine.execIdxSearch r s
  | .encRun => Sys2Proof.Machine.execEncRun s
  | .eInit => Sys2Proof.Machine.execEInit s
  | .eSeedFill => Sys2Proof.Machine.execESeedFill s
  | .eSeedIndex => Sys2Proof.Machine.execESeedIndex s
  | .eSelect => Sys2Proof.Machine.execESelect s
  | .eBlock => Sys2Proof.Machine.execEBlock s
  | .eAdvance => Sys2Proof.Machine.execEAdvance s
  | .eDrain => Sys2Proof.Machine.execEDrain s
  | .eFinal => Sys2Proof.Machine.execEFinal s
  | .eEnd => Sys2Proof.Machine.execEEnd s
  | .decRun bounded => Sys2Proof.Machine.execDecRun bounded s
  | .dInit => Sys2Proof.Machine.execDInit s
  | .dCheck => Sys2Proof.Machine.execDCheck s
  | .dFlag => Sys2Proof.Machine.execDFlag s
  | .dLit => Sys2Proof.Machine.execDLit s
  | .dMatch => Sys2Proof.Machine.execDMatch s
  | .dCopy => Sys2Proof.Machine.execDCopy s
  | .dStop => Sys2Proof.Machine.execDStop s
  | .hdrCheck => Sys2Proof.Machine.execHdrCheck s
  | .guard => Sys2Proof.Machine.execGuard s

end Sys2Proof.Machine
end

