-- ==== Sys2Proof/Machine/Run.lean ====
section
/-! DEFINITION. What one step does, over the meaning of instructions `run` and the parameters: the host's next move, or
one step of the engine (R7, R9, R150, R190; log 5, log 6). -/

namespace Sys2Proof.Machine

/-- One step of the engine. `BUSY`: one FSM state or wire item. Else nothing executes (R158, R173, R180). -/
def engineStep (run : Instr → State → Host.Outcome State Fault Refusal) (s : State) : Host.Outcome State Fault Refusal :=
  match s.top with
  | .busy => run (engineInstr s) s
  | .idle => .next s
  | .done => .next s
  | .fault => .next s

/-- `START` with the command then run state by state (R150; log 5). -/
def startStepped (P : Config.Params) (s : State) : Host.Outcome State Fault Refusal := finish (opStartStepped P) s

/-- A host write: only while not `BUSY` (R36, R204; log 7). -/
def hostStep (P : Config.Params) (a : HostAct) (s : State) : Host.Outcome State Fault Refusal :=
  match s.top, hostWrite P a s with
  | .busy, _ => .refused .hostWriteWhileBusy
  | _, some t => .next t
  | _, none => .next s

/-- One step. -/
def stepOf (run : Instr → State → Host.Outcome State Fault Refusal) (P : Config.Params) (s : State) :
    Host.Outcome State Fault Refusal :=
  match s.host with
  | [] => if s.top = .fault then .fault .stuckInFault else engineStep run s
  | .pass :: rest => engineStep run { s with host := rest }
  | .wait :: rest => if s.top = .busy then engineStep run s else .next { s with host := rest }
  | .start :: rest => run .start { s with host := rest }
  | .startStepped :: rest => startStepped P { s with host := rest }
  | .reset :: rest => run .reset { s with host := rest }
  | .writeCmd v :: rest => hostStep P (.writeCmd v) { s with host := rest }
  | .writeMaxOut v :: rest => hostStep P (.writeMaxOut v) { s with host := rest }
  | .writeInLen v :: rest => hostStep P (.writeInLen v) { s with host := rest }
  | .writeIn a b :: rest => hostStep P (.writeIn a b) { s with host := rest }

end Sys2Proof.Machine
end

