-- ==== Sys2Proof/Safety.lean ====
section
/-! DEFINITION. The terms claims are stated in: canonical memory, the invariants of 10_state.md, a fault taken, a safe
run. -/

namespace Sys2Proof.Machine

/-! ### Memory in its one form -/

/-- Addresses strictly rising, from `lo` on. -/
def risingFrom {w : Nat} (lo : Nat) : List (Nat × BitVec w) → Bool
  | [] => true
  | (a, _) :: rest => decide (lo ≤ a) && risingFrom (a + 1) rest

/-- Addresses strictly rising, and no pair that holds what every unlisted element reads as. -/
def Arr.wf {w : Nat} (m : Arr w) : Bool := risingFrom 0 m.cells && m.cells.all fun c => !m.fill.absorbs c.2

/-- Every array and buffer is in its one form. -/
def State.memWf (s : State) : Bool :=
  s.text.wf && s.lson.wf && s.rson.wf && s.dad.wf && s.cb.wf && s.inBuf.wf && s.outBuf.wf

/-! ### Invariants -/

/-- Mirror coherence (R24). -/
def State.mirrorOk (s : State) : Prop := ∀ j, j < Config.mirrorSize → s.text.read (Config.windowSize + j) = s.text.read j

/-- Node `d` is a root sentinel, or a real node that is linked (R17 (a)). -/
def State.inTree (s : State) (d : Nat) : Prop :=
  (Config.windowSize ≤ d ∧ d < Config.nodeCount) ∨ (d < Config.windowSize ∧ s.dad.read d ≠ Config.nil)

/-- The link structure of the index: R17 (b), the constant links of the roots (R14), and no cycle (R103). -/
structure State.IndexInv (s : State) : Prop where
  /-- The parent of a linked node is in a tree and has it as exactly one of its children. -/
  parent : ∀ p, p < Config.windowSize → s.dad.read p ≠ Config.nil →
    s.inTree (s.dad.read p).toNat ∧
      (((s.lson.read (s.dad.read p).toNat).toNat = p ∧ (s.rson.read (s.dad.read p).toNat).toNat ≠ p) ∨
        ((s.lson.read (s.dad.read p).toNat).toNat ≠ p ∧ (s.rson.read (s.dad.read p).toNat).toNat = p))
  /-- A child link of a node in a tree is NIL or names a real node with that parent. -/
  child : ∀ d, s.inTree d → ∀ l, l = Link.lson ∨ l = Link.rson →
    (s.link l).read d = Config.nil ∨
      (((s.link l).read d).toNat < Config.windowSize ∧ (s.dad.read ((s.link l).read d).toNat).toNat = d)
  /-- The left link and the parent link of a root are NIL. -/
  roots : ∀ c, c < 256 → s.lson.read (Config.windowSize + c) = Config.nil ∧ s.dad.read (Config.windowSize + c) = Config.nil
  /-- Parent links form no cycle. -/
  acyclic : ∃ rank : Nat → Nat, ∀ p, p < Config.windowSize → s.dad.read p ≠ Config.nil →
    rank (s.dad.read p).toNat < rank p

/-- `p` lies strictly below `d`: parent links lead from the linked node `p` to `d` through linked nodes. -/
inductive State.Below (s : State) : Nat → Nat → Prop where
  | child {p : Nat} : p < Config.windowSize → s.dad.read p ≠ Config.nil → s.Below (s.dad.read p).toNat p
  | up {d p : Nat} : p < Config.windowSize → s.dad.read p ≠ Config.nil → s.Below d (s.dad.read p).toNat → s.Below d p

/-- `p` is the node a link names, or lies below it. -/
def State.inSubtree (s : State) (l : Node) (p : Nat) : Prop := l ≠ Config.nil ∧ (p = l.toNat ∨ s.Below l.toNat p)

/-- The 18-byte key of `p` is smaller than that of `q`: they differ, and at the first difference `p` has the smaller byte
as an unsigned number (R91). -/
def State.keyLess (s : State) (p q : Nat) : Prop :=
  ∃ j, j < Config.keyLength ∧ (∀ i, i < j → s.text.read (p + i) = s.text.read (q + i)) ∧
    s.text.read (p + j) < s.text.read (q + j)

/-- The trees as search trees: R17 (c) and (d). -/
structure State.SearchTrees (s : State) : Prop where
  /-- A linked node is in the tree of its first byte. -/
  bucket : ∀ p, p < Config.windowSize → s.dad.read p ≠ Config.nil →
    s.Below (Config.windowSize + (s.text.read p).toNat) p
  /-- Every node of the left subtree of a linked node has a smaller key. -/
  left : ∀ d p, d < Config.windowSize → s.dad.read d ≠ Config.nil → s.inSubtree (s.lson.read d) p → s.keyLess p d
  /-- Every node of the right subtree of a linked node has a greater key. -/
  right : ∀ d p, d < Config.windowSize → s.dad.read d ≠ Config.nil → s.inSubtree (s.rson.read d) p → s.keyLess d p

/-- `q` is reached from `p` by right links. -/
inductive State.RightFrom (s : State) (p : Nat) : Nat → Prop where
  | here : s.RightFrom p p
  | further {q : Nat} : s.RightFrom p q → s.rson.read q ≠ Config.nil → s.RightFrom p (s.rson.read q).toNat

/-- What holds in the main loop of a compress command between tokens: the index, the cursors 18 positions apart (R25),
the 17 positions after the current one unlinked (R17 (f)), `E_LEN` in `0..18` (R18), the input cursor in range (R21). -/
structure State.EncInv (s : State) : Prop where
  index : s.IndexInv
  cursors : s.wp = s.eR + 18
  unlinked : ∀ j, 1 ≤ j → j ≤ 17 → s.dad.read ((s.eR.toNat + j) % Config.windowSize) = Config.nil
  lookahead : s.eLen.toNat ≤ 18
  input : s.ip ≤ s.inLim ∧ s.inLim ≤ s.inLen

/-- While `BUSY`, `ip <= IN_LIM <= IN_LEN` (R21). -/
def State.cursorOk (s : State) : Prop := s.top = .busy → s.ip ≤ s.inLim ∧ s.inLim ≤ s.inLen

/-- `FCODE` names a cause exactly in the state `FAULT` (R35). -/
def State.faultCodeOk (s : State) : Prop := s.top = .fault ↔ s.fcode ≠ none

/-! ### Outcomes -/

/-- `t` is `s` after `raise Fault(c)` (R173): the code and the state, nothing saved, everything else as it was but `OUT`
and `OUT_LEN`, which are any value (U24), and the model's counter of free values. -/
def tookFault (c : FCode) (s t : State) : Prop :=
  t = { s with top := .fault, fcode := some c, outBuf := t.outBuf, outLen := t.outLen, freeCtr := t.freeCtr }

/-- A step that is safe: it has a next state, which is not `FAULT`. -/
def safeStep (s : State) : Prop := ∃ t, step s = .next t ∧ t.top ≠ .fault

/-- Byte `j` of the result, `OUT[j]` (R32). -/
def State.outByte (s : State) (j : Nat) : Byte := s.outBuf.read j

/-- Byte `j` of the input, `IN[j]` (R30). -/
def State.inputByte (s : State) (j : Nat) : Byte := s.inBuf.read j

/-- The first four bytes of `IN` as a little-endian number: the length field of a framed stream (R67, R157). -/
def State.headerField (s : State) : Nat :=
  (s.inputByte 0).toNat + 256 * (s.inputByte 1).toNat + 65536 * (s.inputByte 2).toNat + 16777216 * (s.inputByte 3).toNat

/-- The number of input bytes a run may still read. -/
def State.inputLeft (s : State) : Nat := s.inLim.toNat - s.ip.toNat

end Sys2Proof.Machine
end

