-- ==== Sys2Proof/Certificates/Slice0/Obligations.lean ====
section
/-! DEFINITION. The statements for the provers. Where a statement ends in `t = { s with f := t.f, … }`, that equation is
its frame: every field not named is unchanged. -/

open Sys2Proof Sys2Proof.Machine

/-! ### Encodings (30_encoding.md) -/

/-- Words written out from R61, R63, R64, R67, R71, R72 and the vectors X2, X3, X6, X8, X12, X16 decode to what they
stand for. -/
def Obligations.SpecWordsDecode : Prop :=
  decode .cmd [0b001#8] = .ok (.cmdCompress, []) ∧ decode .cmd [0b101#8] = .ok (.cmdDecompressAllHdr, []) ∧
  decode .cmd [0b110#8] = .ok (.cmdReserved6, []) ∧
  decode .ctrl [0x55#8] = .ok (.ctrl 0b01010101#8, []) ∧ decode .lit [0x41#8] = .ok (.lit 0x41#8, []) ∧
  decode .matchTok [0xEE#8, 0xF0#8] = .ok (.matchTok 4078#12 0#4, []) ∧
  decode .matchTok [0x00#8, 0x17#8] = .ok (.matchTok 256#12 7#4, []) ∧
  decode .matchTok [0xFF#8, 0xFF#8] = .ok (.matchTok 4095#12 15#4, []) ∧
  decode .matchTok [0x12#8, 0x0F#8] = .ok (.matchTok 18#12 15#4, []) ∧
  decode .hdr [0x04#8, 0x03#8, 0x02#8, 0x01#8] = .ok (.hdr 0x01020304#32, [])

/-- Decoding the encoding of any well-formed item gives the item back and leaves the bytes after it (R61, R63, R65 to
R67, R71, R72). -/
def Obligations.DecodeOfEncode : Prop :=
  ∀ (i : Instr) (place : Place) (bytes rest : List Byte), i.wf = true → encode i = some (place, bytes) →
    decode place (bytes ++ rest) = .ok (i, rest)

/-- What decodes is the encoding of what it decodes to, and the only bytes of the wire format that do not decode are
those cut short (R65, R66, R69). -/
def Obligations.EncodeOfDecode : Prop :=
  (∀ (i : Instr) (place : Place) (bytes rest : List Byte), decode place bytes = .ok (i, rest) →
    ∃ item, encode i = some (place, item) ∧ bytes = item ++ rest) ∧
  (∀ (place : Place) (bytes : List Byte) (e : DecodeError), place ≠ .cmd → decode place bytes = .error e →
    e = .truncated ∧ bytes.length < (match place with | .matchTok => 2 | .hdr => 4 | _ => 1))

/-- The fields of a MATCH token (R65): `pos`, `lenc`, and the copy cursor and end index the decoder sets from them; the
end index is `lenc + 2 + pos`, in `2..4112`, and `end - pos + 1` bytes are `lenc + 3`. -/
def Obligations.MatchFieldsAssemble : Prop :=
  ∀ b0 b1 : Byte,
    (matchPosOf b0 b1).toNat = b0.toNat ||| ((b1.toNat &&& 0xF0) <<< 4) ∧ (matchPosOf b0 b1).toNat ≤ 4095 ∧
    (matchLencOf b1).toNat = b1.toNat &&& 0x0F ∧
    (copyStart b0 b1).toNat = (matchPosOf b0 b1).toNat ∧
    (copyEnd b0 b1).toNat = (matchLencOf b1).toNat + 2 + (matchPosOf b0 b1).toNat ∧
    2 ≤ (copyEnd b0 b1).toNat ∧ (copyEnd b0 b1).toNat ≤ 4112 ∧
    (copyEnd b0 b1).toNat + 1 - (matchPosOf b0 b1).toNat = (matchLencOf b1).toNat + 3

/-! ### Reset, faults and the machine as a whole -/

/-- The state after reset has the values R37 and R190 give, and meets the invariants; the one form of its arrays is the
model's (log 2). -/
def Obligations.ResetStateValuesAndInvariants : Prop :=
  State.reset.top = .idle ∧ State.reset.stop = .complete ∧ State.reset.fcode = none ∧ State.reset.outLen = 0 ∧
  State.reset.cmd = 0 ∧ State.reset.maxOut = 0 ∧ State.reset.inLen = 0 ∧ State.reset.status = 0 ∧
  State.reset.memWf = true ∧ State.reset.faultCodeOk ∧ State.reset.cursorOk

/-- `RESET` (R190) runs in any state and leaves `STATUS`, `OUT_LEN`, `CMD`, `MAX_OUT`, `IN_LEN` at their reset values. -/
def Obligations.ResetFromAnyState : Prop :=
  ∀ s : State, ∃ t, exec .reset s = .next t ∧ t.top = .idle ∧ t.stop = .complete ∧ t.fcode = none ∧ t.status = 0 ∧
    t.outLen = 0 ∧ t.cmd = 0 ∧ t.maxOut = 0 ∧ t.inLen = 0

/-- `FAULT` is sticky (R174): `START` is ignored, no step without a `RESET` leaves it or changes the first `FCODE`, and a
`RESET` leads to `IDLE` with no code. -/
def Obligations.FaultIsSticky : Prop :=
  ∀ s : State, s.top = .fault →
    exec .start s = .next s ∧
    (∀ t, (∀ rest, s.host ≠ .reset :: rest) → step s = .next t → t.top = .fault ∧ t.fcode = s.fcode) ∧
    (∀ rest, s.host = .reset :: rest → ∃ t, step s = .next t ∧ t.top = .idle ∧ t.fcode = none)

/-- No instruction is refused, and none has no next state but those that walk the trees of the index; so the decoder and
its commands cannot hang (R103, R140, R141; the name `diverges` is the model's, log 10). -/
def Obligations.OnlyIndexWalksCanHang : Prop :=
  (∀ (i : Instr) (s : State) (r : Refusal), exec i s ≠ .refused r) ∧
  (∀ (i : Instr) (s : State) (f : Fault), exec i s = .fault f → f = .diverges ∧
    match i with
    | .idxInsert _ | .idxDelete _ | .idxSearch _ | .eSeedIndex | .eAdvance | .eDrain | .encRun
    | .cmdCompress | .cmdCompressHdr => True
    | .start => s.cmd = 1 ∨ s.cmd = 2
    | _ => False)

/-- Every array and buffer keeps its one form in every step: addresses rising, nothing listed that reads the same
unlisted. The form is the model's way to write an array down (log 2), no rule of the spec. -/
def Obligations.StepKeepsMemoryForm : Prop :=
  ∀ s t : State, s.memWf = true → step s = .next t → t.memWf = true

/-- Every step keeps: a fault cause is recorded exactly in the state `FAULT` (R35, R150, R173, R190). -/
def Obligations.StepKeepsFaultCode : Prop :=
  ∀ s t : State, s.faultCodeOk → step s = .next t → t.faultCodeOk

/-- Every step keeps: while `BUSY`, `ip <= IN_LIM <= IN_LEN` (R21). -/
def Obligations.StepKeepsCursorInRange : Prop :=
  ∀ s t : State, s.cursorOk → step s = .next t → t.cursorOk

/-- Every instruction but `RESET`, after which `TEXT` is unspecified, keeps the mirror equal to positions `0..16`
(R24, R202). -/
def Obligations.MirrorCoherenceKept : Prop :=
  ∀ (i : Instr) (s t : State), i ≠ .reset → s.mirrorOk → exec i s = .next t → t.mirrorOk

/-! ### The window (40_history_window.md) -/

/-- `WIN.CLEAR` (R80). -/
def Obligations.WinClearZeroesWindowAndMirror : Prop :=
  ∀ s : State, ∃ t, exec .winClear s = .next t ∧ (∀ u, u < 4113 → t.text.read u = 0) ∧ t.mirrorOk ∧
    t = { s with text := t.text }

/-- `WIN.WRITE` (R81): the position and, below 17, its mirror element, nothing else; a position above 4095 is
`Fault(F_WINDOW)`. -/
def Obligations.WinWriteSetsPositionAndMirror : Prop :=
  (∀ (pos : Nat) (b : Byte) (s : State), pos ≤ 4095 → ∃ t, exec (.winWrite pos b) s = .next t ∧
    (∀ u, t.text.read u = if u = pos ∨ (pos < 17 ∧ u = pos + 4096) then b else s.text.read u) ∧
    t = { s with text := t.text }) ∧
  (∀ (pos : Nat) (b : Byte) (s : State), 4095 < pos →
    ∃ t, exec (.winWrite pos b) s = .next t ∧ tookFault .window s t)

/-- `WIN.READ` (R82) and `WIN.READ_LA` (R83): what they answer, that nothing else changes, the fault of a lookahead read
beyond the mirror, and that by mirror coherence both answer the same byte. Where the answer is held is the model's
(log 12). -/
def Obligations.WinReadsAnswerThroughMirror : Prop :=
  (∀ (x : Nat) (s : State), exec (.winRead x) s = .next { s with ret := .byte (s.text.read (x % 4096)) }) ∧
  (∀ (p i : Nat) (s : State), p + i ≤ 4112 →
    exec (.winReadLa p i) s = .next { s with ret := .byte (s.text.read (p + i)) }) ∧
  (∀ (p i : Nat) (s : State), 4112 < p + i → ∃ t, exec (.winReadLa p i) s = .next t ∧ tookFault .window s t) ∧
  (∀ (p i : Nat) (s : State), p ≤ 4095 → i ≤ 17 → s.mirrorOk → exec (.winReadLa p i) s = exec (.winRead (p + i)) s)

/-- `WIN.PUT` (R84): writes at `WP` as `WIN.WRITE` does, advances `WP` modulo 4096, answers the position written.
Where the answer is held is the model's (log 12). -/
def Obligations.WinPutAppends : Prop :=
  ∀ (b : Byte) (s : State), ∃ t, exec (.winPut b) s = .next t ∧
    (∀ u, t.text.read u =
      if u = s.wp.toNat ∨ (s.wp.toNat < 17 ∧ u = s.wp.toNat + 4096) then b else s.text.read u) ∧
    t.wp.toNat = (s.wp.toNat + 1) % 4096 ∧ t.ret = .position s.wp ∧
    t = { s with text := t.text, wp := t.wp, ret := t.ret }

/-! ### The match index (41_match_index.md) -/

/-- `IDX.INIT` (R90): all trees empty, every real node unlinked, child links of real nodes left as they are; the link
invariants and the tree order of R17 hold after it. -/
def Obligations.IdxInitEmptiesEveryTree : Prop :=
  ∀ s : State, ∃ t, exec .idxInit s = .next t ∧
    (∀ c, c < 256 → t.rson.read (4096 + c) = Config.nil ∧ t.lson.read (4096 + c) = Config.nil ∧
      t.dad.read (4096 + c) = Config.nil) ∧
    (∀ p, p < 4096 → t.dad.read p = Config.nil ∧ t.lson.read p = s.lson.read p ∧ t.rson.read p = s.rson.read p) ∧
    t.matchLen = 0 ∧ t.matchPos = 0 ∧ t.IndexInv ∧ t.SearchTrees ∧
    t = { s with lson := t.lson, rson := t.rson, dad := t.dad, matchLen := t.matchLen, matchPos := t.matchPos }

/-- `IDX.INSERT` into an empty bucket (R96): the node becomes the only node of its tree, the lookup result has length 0
and keeps its position. -/
def Obligations.IdxInsertIntoEmptyBucket : Prop :=
  ∀ (r : Nat) (s : State), r ≤ 4095 → s.rson.read (4096 + (s.text.read r).toNat) = Config.nil →
    ∃ t, exec (.idxInsert r) s = .next t ∧
      (t.rson.read (4096 + (s.text.read r).toNat)).toNat = r ∧
      (t.dad.read r).toNat = 4096 + (s.text.read r).toNat ∧
      t.lson.read r = Config.nil ∧ t.rson.read r = Config.nil ∧ t.matchLen = 0 ∧ t.matchPos = s.matchPos ∧
      (∀ i, i ≠ r → t.lson.read i = s.lson.read i ∧ t.dad.read i = s.dad.read i) ∧
      (∀ i, i ≠ r → i ≠ 4096 + (s.text.read r).toNat → t.rson.read i = s.rson.read i) ∧
      t = { s with lson := t.lson, rson := t.rson, dad := t.dad, matchLen := t.matchLen, iP := t.iP, iCmp := t.iCmp }

/-- `IDX.INSERT` completes without a fault whenever its preconditions hold (R102, R103): the index invariant is kept, the
node is linked, no other node becomes linked, only a node equal to it in all 18 bytes becomes unlinked (R97), and the length
found is 0 exactly where the bucket was empty (R100 (a)). Where the trees are search trees, each of one first byte (R17 (c),
(d)), they stay so, and a length other than 0 is a common prefix, byte 0 included, with a node linked before (R94,
R100 (b)). -/
def Obligations.IdxInsertCompletesAndKeepsIndex : Prop :=
  ∀ (r : Nat) (s : State), r ≤ 4095 → s.IndexInv → s.dad.read r = Config.nil →
    ∃ t, exec (.idxInsert r) s = .next t ∧ t.IndexInv ∧ t.dad.read r ≠ Config.nil ∧
      (∀ p, p ≤ 4095 → p ≠ r → s.dad.read p = Config.nil → t.dad.read p = Config.nil) ∧
      (∀ p, p ≤ 4095 → s.dad.read p ≠ Config.nil → t.dad.read p = Config.nil →
        t.matchLen = 18 ∧ t.matchPos.toNat = p) ∧
      (t.matchLen = 0 ↔ s.rson.read (4096 + (s.text.read r).toNat) = Config.nil) ∧
      (s.SearchTrees → t.SearchTrees ∧ (t.matchLen ≠ 0 →
        s.dad.read t.matchPos.toNat ≠ Config.nil ∧
        ∀ j, j < t.matchLen.toNat → s.text.read (r + j) = s.text.read (t.matchPos.toNat + j))) ∧
      t = { s with
        lson := t.lson, rson := t.rson, dad := t.dad, matchPos := t.matchPos, matchLen := t.matchLen, iP := t.iP,
        iCmp := t.iCmp, iI := t.iI }

/-- The lookup result of `IDX.INSERT` (R94, R95, R100): at most 18, and where it is not 0 the key of `MATCH_POS` agrees
with the new key from byte 1 to byte `MATCH_LEN-1` and, below 18, differs at the next. Byte 0 is not compared: it agrees where
the trees are those of R17 (c), see `IdxInsertCompletesAndKeepsIndex`. -/
def Obligations.IdxInsertReportsCommonPrefix : Prop :=
  ∀ (r : Nat) (s t : State), exec (.idxInsert r) s = .next t → t.top ≠ .fault →
    t.matchLen.toNat ≤ 18 ∧
    (t.matchLen ≠ 0 →
      (∀ j, 1 ≤ j → j < t.matchLen.toNat → s.text.read (r + j) = s.text.read (t.matchPos.toNat + j)) ∧
      (t.matchLen.toNat < 18 →
        s.text.read (r + t.matchLen.toNat) ≠ s.text.read (t.matchPos.toNat + t.matchLen.toNat)))

/-- Replacement (R97), shown at the top of a tree: a top node `p` whose key equals the new one gives its place, its
parent and both children to `r`, and becomes unlinked with its own child links stale. -/
def Obligations.IdxInsertReplacesEqualKey : Prop :=
  ∀ (r p : Nat) (s : State), r ≤ 4095 → s.IndexInv → s.dad.read r = Config.nil → p ≤ 4095 →
    (s.rson.read (4096 + (s.text.read r).toNat)).toNat = p →
    (∀ j, 1 ≤ j → j ≤ 17 → s.text.read (r + j) = s.text.read (p + j)) →
    ∃ t, exec (.idxInsert r) s = .next t ∧ t.matchPos.toNat = p ∧ t.matchLen = 18 ∧
      (t.rson.read (4096 + (s.text.read r).toNat)).toNat = r ∧
      (t.dad.read r).toNat = 4096 + (s.text.read r).toNat ∧
      t.lson.read r = s.lson.read p ∧ t.rson.read r = s.rson.read p ∧
      (s.lson.read p ≠ Config.nil → (t.dad.read (s.lson.read p).toNat).toNat = r) ∧
      (s.rson.read p ≠ Config.nil → (t.dad.read (s.rson.read p).toNat).toNat = r) ∧
      t.dad.read p = Config.nil ∧ t.lson.read p = s.lson.read p ∧ t.rson.read p = s.rson.read p ∧
      (∀ i, i ≠ r → t.lson.read i = s.lson.read i) ∧
      (∀ i, i ≠ r → i ≠ 4096 + (s.text.read r).toNat → t.rson.read i = s.rson.read i) ∧
      (∀ i, i ≠ r → i ≠ p → i ≠ (s.lson.read p).toNat → i ≠ (s.rson.read p).toNat →
        t.dad.read i = s.dad.read i)

/-- `IDX.SEARCH` (R100) is the insert, with its lookup result as the answer (held where the model says, log 13). -/
def Obligations.IdxSearchIsInsert : Prop :=
  ∀ (r : Nat) (s : State), r ≤ 4095 → s.IndexInv → s.dad.read r = Config.nil →
    ∃ u, exec (.idxInsert r) s = .next u ∧
      exec (.idxSearch r) s = .next { u with ret := .found u.matchPos u.matchLen }

/-- `IDX.DELETE` of an unlinked node does nothing (R99 (a)); of a node with at most one child it puts that child, or NIL,
in the node's place (R99 (b)); of a node with two children it puts the rightmost node `q` of the left subtree there, which
adopts both subtrees and, where it is not the left child itself, leaves its own left subtree in its old place (R99 (c)). No
other link is touched (R98). -/
def Obligations.IdxDeleteRewiresAroundTheNode : Prop :=
  (∀ (p : Nat) (s : State), p ≤ 4351 → s.dad.read p = Config.nil → exec (.idxDelete p) s = .next s) ∧
  (∀ (p : Nat) (q : Node) (s : State), p ≤ 4095 → s.IndexInv → s.dad.read p ≠ Config.nil →
    ((s.rson.read p = Config.nil ∧ q = s.lson.read p) ∨ (s.lson.read p = Config.nil ∧ q = s.rson.read p)) →
    ∃ t, exec (.idxDelete p) s = .next t ∧ t.dad.read p = Config.nil ∧ t.dQ = q ∧
      ((s.rson.read (s.dad.read p).toNat).toNat = p → t.rson.read (s.dad.read p).toNat = q ∧ t.lson = s.lson) ∧
      ((s.rson.read (s.dad.read p).toNat).toNat ≠ p → t.lson.read (s.dad.read p).toNat = q ∧ t.rson = s.rson) ∧
      (q ≠ Config.nil → t.dad.read q.toNat = s.dad.read p) ∧
      (∀ i, i ≠ (s.dad.read p).toNat → t.lson.read i = s.lson.read i ∧ t.rson.read i = s.rson.read i) ∧
      (∀ i, i ≠ p → i ≠ q.toNat → t.dad.read i = s.dad.read i) ∧
      t = { s with lson := t.lson, rson := t.rson, dad := t.dad, dQ := t.dQ }) ∧
  (∀ (p q : Nat) (s : State), p ≤ 4095 → s.IndexInv → s.dad.read p ≠ Config.nil → s.lson.read p ≠ Config.nil →
    s.rson.read p ≠ Config.nil → s.RightFrom (s.lson.read p).toNat q → s.rson.read q = Config.nil →
    ∃ t, exec (.idxDelete p) s = .next t ∧ t.dad.read p = Config.nil ∧ t.dQ.toNat = q ∧
      t.dad.read q = s.dad.read p ∧
      ((s.rson.read (s.dad.read p).toNat).toNat = p → (t.rson.read (s.dad.read p).toNat).toNat = q ∧
        t.lson.read (s.dad.read p).toNat = s.lson.read (s.dad.read p).toNat) ∧
      ((s.rson.read (s.dad.read p).toNat).toNat ≠ p → (t.lson.read (s.dad.read p).toNat).toNat = q ∧
        t.rson.read (s.dad.read p).toNat = s.rson.read (s.dad.read p).toNat) ∧
      t.rson.read q = s.rson.read p ∧ (t.dad.read (s.rson.read p).toNat).toNat = q ∧
      (q = (s.lson.read p).toNat → t.lson.read q = s.lson.read q) ∧
      (q ≠ (s.lson.read p).toNat →
        t.lson.read q = s.lson.read p ∧ (t.dad.read (s.lson.read p).toNat).toNat = q ∧
        t.rson.read (s.dad.read q).toNat = s.lson.read q ∧
        (s.lson.read q ≠ Config.nil → t.dad.read (s.lson.read q).toNat = s.dad.read q)) ∧
      (∀ i, i ≠ (s.dad.read p).toNat → (i = q → q = (s.lson.read p).toNat) → t.lson.read i = s.lson.read i) ∧
      (∀ i, i ≠ (s.dad.read p).toNat → i ≠ q → (i = (s.dad.read q).toNat → q = (s.lson.read p).toNat) →
        t.rson.read i = s.rson.read i) ∧
      (∀ i, i ≠ p → i ≠ q → i ≠ (s.rson.read p).toNat →
        (i = (s.lson.read p).toNat ∨ i = (s.lson.read q).toNat → q = (s.lson.read p).toNat) →
        t.dad.read i = s.dad.read i) ∧
      t = { s with lson := t.lson, rson := t.rson, dad := t.dad, dQ := t.dQ })

/-- `IDX.DELETE` completes without a fault whenever the index invariant holds (R98, R99, R103): the invariant is kept,
the node is unlinked, no other node changes between linked and unlinked, and search trees stay search trees (R17, R99 (c)).
`MATCH_POS` and `MATCH_LEN` are not touched. -/
def Obligations.IdxDeleteCompletesAndKeepsIndex : Prop :=
  ∀ (p : Nat) (s : State), p ≤ 4095 → s.IndexInv →
    ∃ t, exec (.idxDelete p) s = .next t ∧ t.IndexInv ∧ t.dad.read p = Config.nil ∧
      (∀ q, q ≤ 4095 → q ≠ p → (t.dad.read q = Config.nil ↔ s.dad.read q = Config.nil)) ∧
      (s.SearchTrees → t.SearchTrees) ∧
      t = { s with lson := t.lson, rson := t.rson, dad := t.dad, dQ := t.dQ }

/-! ### The encoder (42_encoder_fsm.md) -/

/-- `E_INIT` (R111). -/
def Obligations.EInitSetsUpTheRun : Prop :=
  ∀ s : State, ∃ t, exec .eInit s = .next t ∧ (∀ u, u ≤ 4112 → t.text.read u = 0) ∧
    (∀ c, c < 256 → t.rson.read (4096 + c) = Config.nil) ∧ (∀ p, p ≤ 4351 → t.dad.read p = Config.nil) ∧
    t.IndexInv ∧ t.SearchTrees ∧ t.matchLen = 0 ∧ t.matchPos = 0 ∧
    t.cb.read 0 = 0 ∧ (∀ j, j ≠ 0 → t.cb.read j = s.cb.read j) ∧ t.cbp = 1 ∧ t.mask = 1 ∧
    t.wp = 0 ∧ t.eR = 4078 ∧ t.eLen = 0 ∧ t.eState = .seedFill ∧
    t = { s with
      text := t.text, lson := t.lson, rson := t.rson, dad := t.dad, matchLen := t.matchLen, matchPos := t.matchPos,
      cb := t.cb, cbp := t.cbp, mask := t.mask, wp := t.wp, eR := t.eR, eLen := t.eLen, eState := t.eState }

/-- `E_SEED_FILL` (R112), from `E_LEN` = 0 as `E_INIT` leaves it: the first up to 18 input bytes are written from position
4078 on. -/
def Obligations.ESeedFillCopiesInput : Prop :=
  ∀ (s : State) (n : Nat), s.eLen = 0 → s.ip ≤ s.inLim → s.inLim ≤ s.inLen → n = min 18 s.inputLeft →
    ∃ t, exec .eSeedFill s = .next t ∧ t.eLen.toNat = n ∧ t.ip.toNat = s.ip.toNat + n ∧
      (∀ u, t.text.read u =
        if 4078 ≤ u ∧ u < 4078 + n then s.inputByte (s.ip.toNat + (u - 4078)) else s.text.read u) ∧
      t.eState = (if n = 0 then .endRun else .seedIndex) ∧
      t = { s with text := t.text, ip := t.ip, eLen := t.eLen, eState := t.eState }

/-- `E_SEED_INDEX` (R113) completes when the seed positions are unlinked: of all real nodes only 4061 to 4078 can become
linked, 4078 is, the index invariant holds, and search trees stay search trees. -/
def Obligations.ESeedIndexInsertsSeedPositions : Prop :=
  ∀ s : State, s.IndexInv → (∀ p, 4061 ≤ p → p ≤ 4078 → s.dad.read p = Config.nil) →
    ∃ t, exec .eSeedIndex s = .next t ∧ t.IndexInv ∧ t.eState = .select ∧ t.dad.read 4078 ≠ Config.nil ∧
      (∀ p, p ≤ 4095 → (p < 4061 ∨ 4078 < p) → s.dad.read p = Config.nil → t.dad.read p = Config.nil) ∧
      (s.SearchTrees → t.SearchTrees) ∧
      t = { s with
        lson := t.lson, rson := t.rson, dad := t.dad, matchPos := t.matchPos, matchLen := t.matchLen, iP := t.iP,
        iCmp := t.iCmp, iI := t.iI, eState := t.eState }

/-- `E_SELECT`, LITERAL branch (R114, R115): a best length of at most 2 after the clamp to `E_LEN` buffers the current
window byte with its flag bit set. -/
def Obligations.ESelectLiteralBranch : Prop :=
  ∀ s : State, min s.matchLen.toNat s.eLen.toNat ≤ 2 → 1 ≤ s.cbp.toNat → s.cbp.toNat ≤ 16 →
    ∃ t, exec .eSelect s = .next t ∧ t.matchLen = 1 ∧ t.cb.read 0 = s.cb.read 0 ||| s.mask ∧
      t.cb.read s.cbp.toNat = s.text.read s.eR.toNat ∧
      (∀ j, j ≠ 0 → j ≠ s.cbp.toNat → t.cb.read j = s.cb.read j) ∧
      t.cbp.toNat = s.cbp.toNat + 1 ∧ t.eState = .block ∧
      t = { s with matchLen := t.matchLen, cb := t.cb, cbp := t.cbp, eState := t.eState }

/-- `E_SELECT`, MATCH branch (R114, R116, R66): a clamped length in `3..18` buffers the two bytes of the token; the
control byte is unchanged. -/
def Obligations.ESelectMatchBranch : Prop :=
  ∀ (s : State) (m : Nat), m = min s.matchLen.toNat s.eLen.toNat → 3 ≤ m → m ≤ 18 → 1 ≤ s.cbp.toNat →
    s.cbp.toNat ≤ 15 →
    ∃ t, exec .eSelect s = .next t ∧ t.matchLen.toNat = m ∧
      (t.cb.read s.cbp.toNat).toNat = s.matchPos.toNat % 256 ∧
      (t.cb.read (s.cbp.toNat + 1)).toNat = s.matchPos.toNat / 256 * 16 + (m - 3) ∧
      (∀ j, j ≠ s.cbp.toNat → j ≠ s.cbp.toNat + 1 → t.cb.read j = s.cb.read j) ∧
      t.cbp.toNat = s.cbp.toNat + 2 ∧ t.eState = .block ∧
      t = { s with matchLen := t.matchLen, cb := t.cb, cbp := t.cbp, eState := t.eState }

/-- `E_SELECT` with no room left in the block buffer takes `Fault(F_CB)` (R115, R116, R171). -/
def Obligations.ESelectFullBufferFaults : Prop :=
  ∀ s : State,
    ((min s.matchLen.toNat s.eLen.toNat ≤ 2 ∧ 16 < s.cbp.toNat) ∨
      (3 ≤ min s.matchLen.toNat s.eLen.toNat ∧ 15 < s.cbp.toNat)) →
    ∃ t, exec .eSelect s = .next t ∧ t.top = .fault ∧ t.fcode = some .cb

/-- `E_BLOCK` (R117) with room for more tokens: only `MASK` moves on. With the eighth token: the block is appended to
`OUT`, control byte first, and a new one begins. `E_FINAL` (R121) appends a partial block and does nothing where there
is none. -/
def Obligations.BlocksAreFlushed : Prop :=
  (∀ s : State, s.mask <<< 1 ≠ 0 → exec .eBlock s = .next { s with mask := s.mask <<< 1, eState := .advance }) ∧
  (∀ s : State, s.mask <<< 1 = 0 → s.cbp.toNat ≤ 17 → s.outLen.toNat + s.cbp.toNat < 2 ^ 32 →
    ∃ t, exec .eBlock s = .next t ∧ t.outLen.toNat = s.outLen.toNat + s.cbp.toNat ∧
      (∀ j, j < s.cbp.toNat → t.outByte (s.outLen.toNat + j) = s.cb.read j) ∧
      (∀ a, (a < s.outLen.toNat ∨ s.outLen.toNat + s.cbp.toNat ≤ a) → t.outByte a = s.outByte a) ∧
      t.cb.read 0 = 0 ∧ (∀ j, j ≠ 0 → t.cb.read j = s.cb.read j) ∧ t.cbp = 1 ∧ t.mask = 1 ∧ t.eState = .advance ∧
      t = { s with outBuf := t.outBuf, outLen := t.outLen, cb := t.cb, cbp := t.cbp, mask := t.mask, eState := t.eState }) ∧
  (∀ s : State, s.cbp.toNat ≤ 1 → exec .eFinal s = .next { s with eState := .endRun }) ∧
  (∀ s : State, 1 < s.cbp.toNat → s.cbp.toNat ≤ 17 → s.outLen.toNat + s.cbp.toNat < 2 ^ 32 →
    ∃ t, exec .eFinal s = .next t ∧ t.outLen.toNat = s.outLen.toNat + s.cbp.toNat ∧
      (∀ j, j < s.cbp.toNat → t.outByte (s.outLen.toNat + j) = s.cb.read j) ∧
      (∀ a, (a < s.outLen.toNat ∨ s.outLen.toNat + s.cbp.toNat ≤ a) → t.outByte a = s.outByte a) ∧
      t.eState = .endRun ∧
      t = { s with outBuf := t.outBuf, outLen := t.outLen, eState := t.eState })

/-- `E_ADVANCE` (R118, R201) completes in every state of the main loop: as many positions as the token covers and input
remains are advanced, each new byte written 18 positions after the current one, and the invariants of the main loop
(R17, R25, R205) are kept; the order delete, write, insert (R201) keeps search trees search trees though `TEXT` changes. -/
def Obligations.EAdvanceMovesWithInput : Prop :=
  ∀ (s : State) (n : Nat), s.EncInv → s.matchLen ≤ s.eLen → n = min s.matchLen.toNat s.inputLeft →
    ∃ t, exec .eAdvance s = .next t ∧ t.EncInv ∧ t.eLast = s.matchLen ∧ t.eI.toNat = n ∧
      t.ip.toNat = s.ip.toNat + n ∧ t.eR.toNat = (s.eR.toNat + n) % 4096 ∧ t.wp.toNat = (s.wp.toNat + n) % 4096 ∧
      (∀ k, k < n → t.text.read ((s.wp.toNat + k) % 4096) = s.inputByte (s.ip.toNat + k)) ∧
      (∀ u, u ≤ 4095 → (∀ k, k < n → u ≠ (s.wp.toNat + k) % 4096) → t.text.read u = s.text.read u) ∧
      t.eState = .drain ∧ (s.SearchTrees → t.SearchTrees) ∧
      t = { s with
        text := t.text, wp := t.wp, lson := t.lson, rson := t.rson, dad := t.dad, matchPos := t.matchPos,
        matchLen := t.matchLen, iP := t.iP, iCmp := t.iCmp, iI := t.iI, dQ := t.dQ, eR := t.eR, eLast := t.eLast,
        eI := t.eI, ip := t.ip, eState := t.eState }

/-- `E_DRAIN` (R119, R120) completes in every state of the main loop: each remaining position of the token shrinks the
lookahead by one, no byte is written, the loop ends exactly when `E_LEN` is 0, and search trees stay search trees. -/
def Obligations.EDrainShrinksLookahead : Prop :=
  ∀ (s : State) (n : Nat), s.EncInv → s.eI ≤ s.eLast → n = s.eLast.toNat - s.eI.toNat → n ≤ s.eLen.toNat →
    ∃ t, exec .eDrain s = .next t ∧ t.EncInv ∧ t.eI = s.eLast ∧ t.eLen.toNat = s.eLen.toNat - n ∧
      t.eR.toNat = (s.eR.toNat + n) % 4096 ∧ t.wp.toNat = (s.wp.toNat + n) % 4096 ∧
      t.eState = (if t.eLen = 0 then .final else .select) ∧ (s.SearchTrees → t.SearchTrees) ∧
      t = { s with
        wp := t.wp, lson := t.lson, rson := t.rson, dad := t.dad, matchPos := t.matchPos, matchLen := t.matchLen,
        iP := t.iP, iCmp := t.iCmp, iI := t.iI, dQ := t.dQ, eR := t.eR, eLen := t.eLen, eI := t.eI,
        eState := t.eState }

/-- `ENC.RUN` on empty input completes and produces an empty coded stream (R112, R122). -/
def Obligations.EncRunOnEmptyInput : Prop :=
  ∀ s : State, s.inLim ≤ s.ip →
    ∃ t, exec .encRun s = .next t ∧ t.outLen = s.outLen ∧ t.outBuf = s.outBuf ∧ t.ip = s.ip ∧ t.eState = .endRun ∧
      t.top = s.top

/-- `ENC.RUN` completes on every input whose coded stream fits in `OUT` (R120, R124, R125): all input is consumed, the
stream has at most `n + ceil(n / 8)` bytes, and what `OUT` held before is kept. -/
def Obligations.EncRunCompletesWithinBound : Prop :=
  ∀ (s : State) (n : Nat), s.ip ≤ s.inLim → s.inLim ≤ s.inLen → n = s.inputLeft →
    s.outLen.toNat + n + (n + 7) / 8 < 2 ^ 32 →
    ∃ t, exec .encRun s = .next t ∧ t.eState = .endRun ∧ t.ip = s.inLim ∧
      s.outLen ≤ t.outLen ∧ t.outLen.toNat ≤ s.outLen.toNat + n + (n + 7) / 8 ∧
      (∀ a, a < s.outLen.toNat → t.outByte a = s.outByte a) ∧
      t = { s with
        text := t.text, wp := t.wp, lson := t.lson, rson := t.rson, dad := t.dad, matchPos := t.matchPos,
        matchLen := t.matchLen, iP := t.iP, iCmp := t.iCmp, iI := t.iI, dQ := t.dQ, eR := t.eR, eLen := t.eLen,
        eLast := t.eLast, eI := t.eI, cb := t.cb, cbp := t.cbp, mask := t.mask, ip := t.ip, eState := t.eState,
        outBuf := t.outBuf, outLen := t.outLen }

/-- `E_END` and `D_STOP`: control returns to the command that is running (R110, R130), whose last statements run (R151,
R152) and which completes (R158); where no such command runs, nothing happens (the model's reading, log 19). -/
def Obligations.EndStatesCompleteTheCommand : Prop :=
  (∀ s : State, s.top = .busy → s.cmd = 1 → exec .eEnd s = .next { s with stop := .complete, top := .done }) ∧
  (∀ s : State, s.top = .busy → s.cmd = 2 → 4 ≤ s.outLen.toNat →
    ∃ t, exec .eEnd s = .next t ∧
      (t.outByte 0).toNat + 256 * (t.outByte 1).toNat + 65536 * (t.outByte 2).toNat + 16777216 * (t.outByte 3).toNat =
        s.outLen.toNat - 4 ∧
      (∀ a, 4 ≤ a → t.outByte a = s.outByte a) ∧ t.stop = .complete ∧ t.top = .done ∧
      t = { s with outBuf := t.outBuf, stop := t.stop, top := t.top }) ∧
  (∀ s : State, (s.top ≠ .busy ∨ (s.cmd ≠ 1 ∧ s.cmd ≠ 2)) → exec .eEnd s = .next s) ∧
  (∀ s : State, s.top = .busy → (s.cmd = 3 ∨ s.cmd = 4 ∨ s.cmd = 5) → exec .dStop s = .next { s with top := .done }) ∧
  (∀ s : State, (s.top ≠ .busy ∨ (s.cmd ≠ 3 ∧ s.cmd ≠ 4 ∧ s.cmd ≠ 5)) → exec .dStop s = .next s)

/-! ### The decoder (43_decoder_fsm.md) -/

/-- `D_INIT` (R131). -/
def Obligations.DInitSetsUpTheRun : Prop :=
  ∀ s : State, ∃ t, exec .dInit s = .next t ∧ (∀ u, u ≤ 4112 → t.text.read u = 0) ∧ t.wp = 4078 ∧ t.dflags = 0 ∧
    t.dState = .check ∧ t = { s with text := t.text, wp := t.wp, dflags := t.dflags, dState := t.dState }

/-- `D_CHECK` (R139). As an instruction on its own it takes `bounded` to be `CMD` = 3 in every state: the model's reading
(log 15) of the calls in R153, R155 and R156. -/
def Obligations.DCheckTestsTheBound : Prop :=
  (∀ s : State, s.cmd = 3 → s.maxOut ≤ s.outLen →
    exec .dCheck s = .next { s with stop := .maxReached, dState := .stop }) ∧
  (∀ s : State, (s.cmd ≠ 3 ∨ s.outLen < s.maxOut) → exec .dCheck s = .next { s with dState := .flag })

/-- `D_FLAG` (R133): a flag left in the cache, a reload, and the end of the input. -/
def Obligations.DFlagShiftsOrReloads : Prop :=
  (∀ s : State, (s.dflags >>> 1).getLsbD 8 = true →
    exec .dFlag s = .next { s with
      dflags := s.dflags >>> 1, dState := if (s.dflags >>> 1).getLsbD 0 then .lit else .matchTok }) ∧
  (∀ s : State, (s.dflags >>> 1).getLsbD 8 = false → s.ip < s.inLim → s.inLim ≤ s.inLen →
    exec .dFlag s = .next { s with
      dflags := 0xFF00#16 ||| (s.inputByte s.ip.toNat).setWidth 16, ip := s.ip + 1,
      dState := if (s.inputByte s.ip.toNat).getLsbD 0 then .lit else .matchTok }) ∧
  (∀ s : State, (s.dflags >>> 1).getLsbD 8 = false → s.inLim ≤ s.ip →
    exec .dFlag s = .next { s with dflags := s.dflags >>> 1, stop := .inEnd, dState := .stop })

/-- Each control byte serves exactly 8 tokens, least significant bit first (R133): after `j` shifts bit 0 of the cache is
flag `j`, and the cache is exhausted at the eighth shift and not before. -/
def Obligations.FlagCacheServesEightTokens : Prop :=
  ∀ (b : Byte) (j : Nat),
    (j < 8 → flagIsLiteral (flagShift^[j] (flagLoad b)) = b.getLsbD j ∧
      flagsExhausted (flagShift^[j] (flagLoad b)) = false) ∧
    (j = 8 → flagShift^[j] (flagLoad b) = 0x00FF#16 ∧ flagsExhausted (flagShift^[j] (flagLoad b)) = true)

/-- `D_LIT` (R134): a byte read, emitted and put in the window; the end of the input; `Fault(F_LEN)` where `OUT` is full. -/
def Obligations.DLitEmitsAndStores : Prop :=
  (∀ (s : State) (b : Byte), s.ip < s.inLim → s.inLim ≤ s.inLen → b = s.inputByte s.ip.toNat →
    s.outLen.toNat < 2 ^ 32 - 1 →
    ∃ t, exec .dLit s = .next t ∧ t.ip = s.ip + 1 ∧ t.outLen = s.outLen + 1 ∧
      (∀ a, t.outByte a = if a = s.outLen.toNat then b else s.outByte a) ∧
      (∀ u, t.text.read u =
        if u = s.wp.toNat ∨ (s.wp.toNat < 17 ∧ u = s.wp.toNat + 4096) then b else s.text.read u) ∧
      t.wp = s.wp + 1 ∧ t.dState = .check ∧
      t = { s with
        ip := t.ip, outBuf := t.outBuf, outLen := t.outLen, text := t.text, wp := t.wp, dState := t.dState }) ∧
  (∀ s : State, s.inLim ≤ s.ip → exec .dLit s = .next { s with stop := .inEnd, dState := .stop }) ∧
  (∀ s : State, s.ip < s.inLim → s.inLim ≤ s.inLen → s.outLen.toNat = 2 ^ 32 - 1 →
    ∃ t, exec .dLit s = .next t ∧ t.top = .fault ∧ t.fcode = some .len)

/-- `D_MATCH` (R135): the two bytes assembled as R65 says; no byte left; exactly one byte left, which is not consumed. -/
def Obligations.DMatchAssemblesOrStops : Prop :=
  (∀ (s : State) (b0 b1 : Byte), s.ip.toNat + 1 < s.inLim.toNat → s.inLim ≤ s.inLen →
    b0 = s.inputByte s.ip.toNat → b1 = s.inputByte (s.ip.toNat + 1) →
    ∃ t, exec .dMatch s = .next t ∧ t.dB0 = b0 ∧ t.dB1 = b1 ∧ t.ip = s.ip + 2 ∧
      t.dK.toNat = b0.toNat ||| ((b1.toNat &&& 0xF0) <<< 4) ∧ t.dEnd.toNat = (b1.toNat &&& 0x0F) + 2 + t.dK.toNat ∧
      t.dState = .copy ∧
      t = { s with dB0 := t.dB0, dB1 := t.dB1, ip := t.ip, dK := t.dK, dEnd := t.dEnd, dState := t.dState }) ∧
  (∀ s : State, s.inLim ≤ s.ip → exec .dMatch s = .next { s with stop := .inEnd, dState := .stop }) ∧
  (∀ s : State, s.inLim.toNat = s.ip.toNat + 1 → exec .dMatch s = .next { s with stop := .trunc, dState := .stop })

/-- `D_COPY` (R136, R200): `n` bytes are copied one at a time, so that a byte whose source lies `d` positions behind the
write cursor with `d` at most its index in the copy repeats a byte the same token has just produced; every other byte
is the old window content. The bound can end the copy early; that `bounded` is `CMD` = 3 in every state is the model's
reading (log 15). -/
def Obligations.DCopyReplaysHistory : Prop :=
  ∀ (s : State) (n d : Nat), s.dEnd.toNat ≤ 4112 → s.dEnd.toNat + 1 - s.dK.toNat ≤ 18 →
    n = (if s.cmd = 3 then min (s.dEnd.toNat + 1 - s.dK.toNat) (s.maxOut.toNat - s.outLen.toNat)
      else s.dEnd.toNat + 1 - s.dK.toNat) →
    d = (s.wp.toNat + 8192 - s.dK.toNat) % 4096 → s.outLen.toNat + n < 2 ^ 32 →
    ∃ t, exec .dCopy s = .next t ∧ t.outLen.toNat = s.outLen.toNat + n ∧ t.dK.toNat = s.dK.toNat + n ∧
      t.wp.toNat = (s.wp.toNat + n) % 4096 ∧ t.dState = .check ∧
      (∀ j, j < n → t.outByte (s.outLen.toNat + j) =
        if 1 ≤ d ∧ d ≤ j then t.outByte (s.outLen.toNat + j - d) else s.text.read ((s.dK.toNat + j) % 4096)) ∧
      (∀ a, (a < s.outLen.toNat ∨ s.outLen.toNat + n ≤ a) → t.outByte a = s.outByte a) ∧
      (∀ j, j < n → t.text.read ((s.wp.toNat + j) % 4096) = t.outByte (s.outLen.toNat + j)) ∧
      (∀ u, u ≤ 4095 → (∀ j, j < n → u ≠ (s.wp.toNat + j) % 4096) → t.text.read u = s.text.read u) ∧
      t = { s with
        text := t.text, wp := t.wp, dK := t.dK, outBuf := t.outBuf, outLen := t.outLen, dState := t.dState }

/-- The wire items as instructions: a control byte becomes the flag cache (R133), a LITERAL is emitted and put in the
window (R134), a MATCH sets the copy up (R65, R135). -/
def Obligations.WireItemsHaveTheirEffect : Prop :=
  (∀ (b : Byte) (s : State), exec (.ctrl b) s = .next { s with
    dflags := 0xFF00#16 ||| b.setWidth 16, ip := s.ip + 1, dState := if b.getLsbD 0 then .lit else .matchTok }) ∧
  (∀ (b : Byte) (s : State), s.outLen.toNat < 2 ^ 32 - 1 →
    ∃ t, exec (.lit b) s = .next t ∧ t.ip = s.ip + 1 ∧ t.outLen = s.outLen + 1 ∧
      (∀ a, t.outByte a = if a = s.outLen.toNat then b else s.outByte a) ∧
      (∀ u, t.text.read u =
        if u = s.wp.toNat ∨ (s.wp.toNat < 17 ∧ u = s.wp.toNat + 4096) then b else s.text.read u) ∧
      t.wp = s.wp + 1 ∧ t.dState = .check ∧
      t = { s with
        ip := t.ip, outBuf := t.outBuf, outLen := t.outLen, text := t.text, wp := t.wp, dState := t.dState }) ∧
  (∀ (pos : Pos) (lenc : BitVec 4) (s : State), ∃ t, exec (.matchTok pos lenc) s = .next t ∧
    t.dK.toNat = pos.toNat ∧ t.dEnd.toNat = lenc.toNat + 2 + pos.toNat ∧ t.ip = s.ip + 2 ∧
    t.dB0.toNat = pos.toNat % 256 ∧ t.dB1.toNat = pos.toNat / 256 * 16 + lenc.toNat ∧ t.dState = .copy ∧
    t = { s with dB0 := t.dB0, dB1 := t.dB1, ip := t.ip, dK := t.dK, dEnd := t.dEnd, dState := t.dState })

/-- Running the item a decoder state fetches is running that state, in every state of the machine (R130, R133 to R135). -/
def Obligations.FetchedItemIsTheStateMeaning : Prop :=
  ∀ s : State, exec (decoderInstr s) s = exec (dStateInstr s.dState) s

/-- `DEC.RUN` completes on every byte sequence, where it is unbounded whenever the expansion fits in `OUT` (R138, R140,
R141; bounded, `F_LEN` cannot occur, R153): it ends in one of the
three stop conditions, emits at most 9 bytes for each coded byte, keeps to the bound, and leaves `WP` as many positions
after 4078 as bytes were emitted (R87). -/
def Obligations.DecRunCompletesWithinBound : Prop :=
  ∀ (s : State) (bounded : Bool), s.ip ≤ s.inLim → s.inLim ≤ s.inLen →
    (bounded = false → s.outLen.toNat + 9 * s.inputLeft < 2 ^ 32) →
    ∃ t, exec (.decRun bounded) s = .next t ∧ t.dState = .stop ∧
      (t.stop = .inEnd ∨ t.stop = .trunc ∨ (t.stop = .maxReached ∧ bounded = true ∧ s.maxOut ≤ t.outLen)) ∧
      s.outLen ≤ t.outLen ∧ t.outLen.toNat ≤ s.outLen.toNat + 9 * s.inputLeft ∧
      (bounded = true → t.outLen.toNat ≤ max s.maxOut.toNat s.outLen.toNat) ∧
      s.ip ≤ t.ip ∧ t.ip ≤ s.inLim ∧
      t.wp.toNat = (4078 + (t.outLen.toNat - s.outLen.toNat)) % 4096 ∧
      (∀ a, a < s.outLen.toNat → t.outByte a = s.outByte a) ∧
      t = { s with
        text := t.text, wp := t.wp, dflags := t.dflags, dB0 := t.dB0, dB1 := t.dB1, dK := t.dK, dEnd := t.dEnd,
        ip := t.ip, dState := t.dState, stop := t.stop, outBuf := t.outBuf, outLen := t.outLen }

/-- Bounded decoding gives the prefix of unbounded decoding that the bound allows (R136 (c), R153). -/
def Obligations.BoundedDecodeIsPrefix : Prop :=
  ∀ s t u : State, s.outLen = 0 → exec (.decRun false) s = .next t → t.top ≠ .fault →
    exec (.decRun true) s = .next u → u.top ≠ .fault →
    u.outLen.toNat = min s.maxOut.toNat t.outLen.toNat ∧ (∀ a, a < u.outLen.toNat → u.outByte a = t.outByte a)

/-! ### Commands (44_commands_framing.md, 60_exceptions.md) -/

/-- The reserved codes take `Fault(F_BADCMD)` (R72, R173), as commands and at `START` in `IDLE` or `DONE` (R150). -/
def Obligations.ReservedCommandsFault : Prop :=
  (∀ (i : Instr) (s : State), i = .cmdReserved0 ∨ i = .cmdReserved6 ∨ i = .cmdReserved7 →
    ∃ t, exec i s = .next t ∧ tookFault .badCmd s t) ∧
  (∀ s : State, (s.top = .idle ∨ s.top = .done) → (s.cmd = 0 ∨ s.cmd = 6 ∨ s.cmd = 7) →
    ∃ t, exec .start s = .next t ∧ tookFault .badCmd (startPrologue s) t)

/-- `START` (R150): ignored in `BUSY` and `FAULT`; else it clears the diagnostics, `OUT_LEN` and the cursors, runs the
command `CMD` decodes to, and is `DONE` unless a fault was raised. -/
def Obligations.StartRunsTheDecodedCommand : Prop :=
  (∀ s : State, (s.top = .busy ∨ s.top = .fault) → exec .start s = .next s) ∧
  (∀ (s u : State) (i : Instr), (s.top = .idle ∨ s.top = .done) → decode .cmd [s.cmd.setWidth 8] = .ok (i, []) →
    exec i { s with top := .busy, stop := .complete, fcode := none, outLen := 0, ip := 0, inLim := s.inLen } = .next u →
    exec .start s = .next (if u.top = .fault then u else { u with top := .done }))

/-- Every command completes (R158): from `IDLE` or `DONE`, `START` with a code 1 to 5 ends `DONE` with no fault recorded,
where the result can reach `2^LEN_W` bytes (R124, R141, R151, R152, R155; never in `CMD_DECOMPRESS`, R153) given that the bound
on its length stays below that. -/
def Obligations.EveryCommandCompletes : Prop :=
  ∀ s : State, (s.top = .idle ∨ s.top = .done) → 1 ≤ s.cmd.toNat → s.cmd.toNat ≤ 5 →
    (s.cmd = 1 → s.inLen.toNat + (s.inLen.toNat + 7) / 8 < 2 ^ 32) →
    (s.cmd = 2 → 4 + s.inLen.toNat + (s.inLen.toNat + 7) / 8 < 2 ^ 32) →
    (s.cmd = 4 ∨ s.cmd = 5 → 9 * s.inLen.toNat < 2 ^ 32) →
    ∃ t, exec .start s = .next t ∧ t.top = .done ∧ t.fcode = none ∧ t.cmd = s.cmd ∧ t.maxOut = s.maxOut ∧
      t.inLen = s.inLen ∧ t.inBuf = s.inBuf ∧ t.host = s.host

/-- `GUARD` (R154) answers whether `MAX_OUT + 10 > 2000 * IN_LEN` on integers; where it trips `CMD_DECOMPRESS` only writes
`STOP` (R153). Where the answer is held is the model's (log 12). -/
def Obligations.GuardIsTheExactInequality : Prop :=
  (∀ s : State, exec .guard s =
    .next { s with ret := .trips (decide (s.maxOut.toNat + 10 > 2000 * s.inLen.toNat)) }) ∧
  (∀ s : State, s.maxOut.toNat + 10 > 2000 * s.inLen.toNat → exec .cmdDecompress s = .next { s with stop := .guard })

/-- `HDR.CHECK` (R157): bad below 4 bytes, with `ip` untouched; else `ip` is 4 and the answer is whether the little-endian
length equals `IN_LEN - 4`. Where the answer is held is the model's (log 12), and so is that the header run as an item makes
the same check of its own length field (log 18). -/
def Obligations.HeaderCheckComparesLength : Prop :=
  (∀ s : State, s.inLen.toNat < 4 → exec .hdrCheck s = .next { s with ret := .header false }) ∧
  (∀ s : State, 4 ≤ s.inLen.toNat → exec .hdrCheck s = .next { s with
    ip := 4
    ret := .header (decide ((s.inputByte 0).toNat + 256 * (s.inputByte 1).toNat + 65536 * (s.inputByte 2).toNat +
      16777216 * (s.inputByte 3).toNat = s.inLen.toNat - 4)) }) ∧
  (∀ (len : BitVec 32) (s : State), s.inLen.toNat < 4 → exec (.hdr len) s = .next { s with ret := .header false }) ∧
  (∀ (len : BitVec 32) (s : State), 4 ≤ s.inLen.toNat →
    exec (.hdr len) s = .next { s with ip := 4, ret := .header (decide (len.toNat = s.inLen.toNat - 4)) })

/-- The decompress commands complete (R153, R155 to R157): unbounded from `ip`; bounded where the guard passes, with no
condition on the length of the result; with a header, an empty result with `BAD_HEADER` below 4 bytes (`ip` untouched) or where
the length differs from `IN_LEN - 4` (`ip` is 4), and the bytes from offset 4 on where it is equal. -/
def Obligations.DecompressCommandsComplete : Prop :=
  (∀ s : State, s.ip ≤ s.inLim → s.inLim ≤ s.inLen → s.outLen.toNat + 9 * s.inputLeft < 2 ^ 32 →
    ∃ t, exec .cmdDecompressAll s = .next t ∧ exec (.decRun false) s = .next t ∧ t.top = s.top ∧
      (t.stop = .inEnd ∨ t.stop = .trunc)) ∧
  (∀ s : State, s.ip ≤ s.inLim → s.inLim ≤ s.inLen → s.maxOut.toNat + 10 ≤ 2000 * s.inLen.toNat →
    ∃ t, exec .cmdDecompress s = .next t ∧ exec (.decRun true) s = .next t ∧ t.top = s.top ∧
      (t.stop = .inEnd ∨ t.stop = .trunc ∨ t.stop = .maxReached)) ∧
  (∀ s : State, s.inLen.toNat < 4 → exec .cmdDecompressAllHdr s = .next { s with stop := .badHeader }) ∧
  (∀ s : State, 4 ≤ s.inLen.toNat → s.headerField ≠ s.inLen.toNat - 4 →
    exec .cmdDecompressAllHdr s = .next { s with ip := 4, stop := .badHeader }) ∧
  (∀ s : State, 4 ≤ s.inLen.toNat → s.headerField = s.inLen.toNat - 4 → s.inLim = s.inLen →
    s.outLen.toNat + 9 * (s.inLen.toNat - 4) < 2 ^ 32 →
    ∃ t, exec .cmdDecompressAllHdr s = .next t ∧ exec (.decRun false) { s with ip := 4 } = .next t ∧ t.top = s.top ∧
      (t.stop = .inEnd ∨ t.stop = .trunc))

/-- The compress commands complete (R151, R152): the coded stream is what `ENC.RUN` appends; with a header it starts at
offset 4 and the first four bytes are its length, little-endian. -/
def Obligations.CompressCommandsComplete : Prop :=
  (∀ s : State, s.ip ≤ s.inLim → s.inLim ≤ s.inLen →
    s.outLen.toNat + s.inputLeft + (s.inputLeft + 7) / 8 < 2 ^ 32 →
    ∃ u, exec .encRun s = .next u ∧ exec .cmdCompress s = .next { u with stop := .complete } ∧ u.top = s.top ∧
      u.ip = s.inLim) ∧
  (∀ s : State, s.ip ≤ s.inLim → s.inLim ≤ s.inLen → 4 + s.inputLeft + (s.inputLeft + 7) / 8 < 2 ^ 32 →
    ∃ t u, exec .encRun { s with outLen := 4 } = .next u ∧ exec .cmdCompressHdr s = .next t ∧
      t = { u with outBuf := t.outBuf, stop := .complete } ∧ t.top = s.top ∧ 4 ≤ t.outLen.toNat ∧
      (t.outByte 0).toNat + 256 * (t.outByte 1).toNat + 65536 * (t.outByte 2).toNat + 16777216 * (t.outByte 3).toNat =
        t.outLen.toNat - 4 ∧
      (∀ a, 4 ≤ a → t.outByte a = u.outByte a))

/-- The model's two granularities, one FSM state per step and one command per step (log 5), are the same machine: whatever
state `START` run to its end leads to is reached by steps of one state each. R9 asks for equal `OUT`, `OUT_LEN` and `STATUS`
alone; that the whole state is equal is the model's, which keeps internal
state after a command as the command left it (log 28). -/
def Obligations.SteppedRunReachesTheSameState : Prop :=
  ∀ s t : State, s.host = [] → exec .start s = .next t →
    ∃ k, Host.Core.run Sys2Proof.core k { s with host := [.startStepped] } = .next t

/-- The result of a command depends on `CMD`, `MAX_OUT`, `IN_LEN` and the input bytes alone, never on what the engine held
before (R193); so stale links and stale bytes of the block buffer are never read. -/
def Obligations.CommandIgnoresHistory : Prop :=
  ∀ s s' t t' : State, (s.top = .idle ∨ s.top = .done) → (s'.top = .idle ∨ s'.top = .done) →
    s'.cmd = s.cmd → s'.maxOut = s.maxOut → s'.inLen = s.inLen →
    (∀ a, a < s.inLen.toNat → s'.inputByte a = s.inputByte a) →
    exec .start s = .next t → exec .start s' = .next t' →
    t'.top = t.top ∧ t'.fcode = t.fcode ∧ (t.top = .done → t'.stop = t.stop ∧ t'.outLen = t.outLen ∧
      ∀ a, a < t.outLen.toNat → t'.outByte a = t.outByte a)

/-- Round trip (R123, R207): decompressing what a compress command produced gives its input back. -/
def Obligations.DecompressOfCompress : Prop :=
  ∀ s t u : State, s.cmd = 1 → exec .start s = .next t → t.top = .done →
    exec .start { t with cmd := 4, inBuf := t.outBuf, inLen := t.outLen } = .next u →
    u.top = .done ∧ u.outLen = s.inLen ∧ ∀ a, a < s.inLen.toNat → u.outByte a = s.inputByte a

/-! ### Steps -/

/-- A step runs what is fetched: a `BUSY` engine runs the row of its FSM state or, where the bytes at `ip` decode to the
item that state reads, that item (R21, R22); the host's `START` and `RESET` run those rows (R150, R190). How the host's
moves are listed is the model's (log 6), and so is that an idle or done engine with no move left stays as it is (log 9). -/
def Obligations.StepRunsTheFetchedInstruction : Prop :=
  (∀ s : State, s.host = [] → s.top = .busy → step s = exec (engineInstr s) s) ∧
  (∀ (s : State) (place : Place) (i : Instr) (rest : List Byte), s.host = [] → s.top = .busy →
    (s.cmd = 3 ∨ s.cmd = 4 ∨ s.cmd = 5) → dueItem s = some place → decode place (fetchBytes s) = .ok (i, rest) →
    step s = exec i s) ∧
  (∀ (s : State) (rest : List HostAct), s.host = .start :: rest → step s = exec .start { s with host := rest }) ∧
  (∀ (s : State) (rest : List HostAct), s.host = .reset :: rest → step s = exec .reset { s with host := rest }) ∧
  (∀ (s : State), s.host = [] → (s.top = .idle ∨ s.top = .done) → step s = .next s)

/-- Host writes (R36): they set the register or input byte they name and nothing else while the engine is not `BUSY`, and
are no move the model offers while it is (R204; log 7). In `FAULT` with no host move left there is no next state (log 8). -/
def Obligations.HostWritesOnlyWhileNotBusy : Prop :=
  (∀ (s : State) (v : BitVec 3) (rest : List HostAct), s.top ≠ .busy → s.host = .writeCmd v :: rest →
    step s = .next { s with cmd := v, host := rest }) ∧
  (∀ (s : State) (v : Len) (rest : List HostAct), s.top ≠ .busy → s.host = .writeMaxOut v :: rest →
    step s = .next { s with maxOut := v, host := rest }) ∧
  (∀ (s : State) (v : Len) (rest : List HostAct), s.top ≠ .busy → s.host = .writeInLen v :: rest →
    step s = .next { s with inLen := v, host := rest }) ∧
  (∀ (s : State) (off : Len) (b : Byte) (rest : List HostAct), s.top ≠ .busy → s.host = .writeIn off b :: rest →
    ∃ t, step s = .next t ∧ (∀ a, t.inputByte a = if a = off.toNat then b else s.inputByte a) ∧
      t = { s with inBuf := t.inBuf, host := rest }) ∧
  (∀ (s : State) (h : HostAct) (rest : List HostAct), s.top = .busy → s.host = h :: rest →
    (∃ v, h = .writeCmd v) ∨ (∃ v, h = .writeMaxOut v) ∨ (∃ v, h = .writeInLen v) ∨ (∃ off b, h = .writeIn off b) →
    step s = .refused .hostWriteWhileBusy) ∧
  (∀ s : State, s.top = .fault → s.host = [] → step s = .fault .stuckInFault)

/-- `STATUS` (R35): `STATE` in bits 1:0, `STOP` in bits 4:2, `FCODE` in bits 8:5, with the codes of R35 and R171. -/
def Obligations.StatusWordHoldsItsFields : Prop :=
  ∀ s : State,
    s.status.toNat % 4 = (match s.top with | .idle => 0 | .busy => 1 | .done => 2 | .fault => 3) ∧
    s.status.toNat / 4 % 8 = (match s.stop with
      | .complete => 0 | .maxReached => 1 | .inEnd => 2 | .trunc => 3 | .guard => 4 | .badHeader => 5) ∧
    s.status.toNat / 32 = (match s.fcode with
      | none => 0 | some .badCmd => 1 | some .index => 2 | some .window => 3 | some .cb => 4 | some .len => 5)
end

