-- ==== Sys2Proof/Laws/Arr.lean ====
section
/-! SUPPORT. Arrays: a read after a write, and the one form every write keeps. -/

namespace Sys2Proof.Machine

variable {w : Nat}

@[simp] theorem lookupCell_insert_same (a : Nat) (d v : BitVec w) (l : List (Nat × BitVec w)) :
    lookupCell a d (insertCell a v l) = v := by
  induction l with
  | nil => simp [insertCell, lookupCell]
  | cons c rest ih =>
    obtain ⟨b, u⟩ := c
    simp only [insertCell]
    split_ifs with h1 h2 <;> simp [lookupCell, *]

theorem lookupCell_insert_other {a c : Nat} (h : c ≠ a) (d v : BitVec w) (l : List (Nat × BitVec w)) :
    lookupCell c d (insertCell a v l) = lookupCell c d l := by
  induction l with
  | nil => simp [insertCell, lookupCell, h]
  | cons e rest ih =>
    obtain ⟨b, u⟩ := e
    simp only [insertCell]
    split_ifs with h1 h2
    · subst h1; simp [lookupCell, h]
    · simp [lookupCell, h]
    · simp [lookupCell, ih]

@[simp] theorem lookupCell_erase_same (a : Nat) (d : BitVec w) (l : List (Nat × BitVec w)) :
    lookupCell a d (eraseCell a l) = d := by
  induction l with
  | nil => simp [eraseCell, lookupCell]
  | cons c rest ih =>
    obtain ⟨b, u⟩ := c
    simp only [eraseCell]
    split_ifs with h1
    · exact ih
    · simp [lookupCell, h1, ih]

theorem lookupCell_erase_other {a c : Nat} (h : c ≠ a) (d : BitVec w) (l : List (Nat × BitVec w)) :
    lookupCell c d (eraseCell a l) = lookupCell c d l := by
  induction l with
  | nil => simp [eraseCell]
  | cons e rest ih =>
    obtain ⟨b, u⟩ := e
    simp only [eraseCell]
    split_ifs with h1
    · subst h1; simp [lookupCell, h, ih]
    · simp [lookupCell, ih]

@[simp] theorem Arr.write_fill (m : Arr w) (a : Nat) (v : BitVec w) : (m.write a v).fill = m.fill := rfl

theorem Fill.read_of_absorbs {f : Fill w} {v : BitVec w} (h : f.absorbs v = true) (a : Nat) : f.read a = v := by
  cases f with
  | const u => simpa [Fill.absorbs, Fill.read] using h
  | free k e => simp [Fill.absorbs] at h

/-- A read of the element just written gives the value written. -/
@[simp] theorem Arr.read_write_same (m : Arr w) (a : Nat) (v : BitVec w) : (m.write a v).read a = v := by
  unfold Arr.read Arr.write
  cases h : m.fill.absorbs v with
  | true => simpa using Fill.read_of_absorbs h a
  | false => simp

/-- A write leaves every other element alone. -/
theorem Arr.read_write_other (m : Arr w) {a c : Nat} (h : c ≠ a) (v : BitVec w) : (m.write a v).read c = m.read c := by
  unfold Arr.read Arr.write
  split_ifs
  · exact lookupCell_erase_other h _ _
  · exact lookupCell_insert_other h _ _ _

/-- Both facts in one. -/
theorem Arr.read_write (m : Arr w) (a c : Nat) (v : BitVec w) : (m.write a v).read c = if c = a then v else m.read c := by
  split_ifs with h
  · subst h; simp
  · exact m.read_write_other h v

@[simp] theorem Arr.read_all (v : BitVec w) (a : Nat) : (Arr.all v).read a = v := rfl

/-- `writeRange` sets its elements and no other. -/
theorem Arr.read_writeRange (lo : Nat) (v : BitVec w) (n : Nat) (m : Arr w) (c : Nat) :
    (Arr.writeRange lo v n m).read c = if lo ≤ c ∧ c < lo + n then v else m.read c := by
  induction n generalizing m with
  | zero =>
    have : ¬ (lo ≤ c ∧ c < lo) := by omega
    simp [Arr.writeRange, this]
  | succ n ih =>
    rw [Arr.writeRange, ih, Arr.read_write]
    by_cases h : c = lo + n
    · subst h; simp
    · rw [if_neg h]
      by_cases h1 : lo ≤ c ∧ c < lo + n
      · rw [if_pos h1, if_pos (by omega)]
      · rw [if_neg h1, if_neg (by omega)]

/-! ### The one form -/

theorem risingFrom_mono {lo hi : Nat} (h : lo ≤ hi) {l : List (Nat × BitVec w)} (hl : risingFrom hi l = true) :
    risingFrom lo l = true := by
  cases l with
  | nil => rfl
  | cons c rest =>
    obtain ⟨a, u⟩ := c
    simp only [risingFrom, Bool.and_eq_true, decide_eq_true_eq] at hl ⊢
    exact ⟨by omega, hl.2⟩

theorem risingFrom_insert {lo a : Nat} (v : BitVec w) {l : List (Nat × BitVec w)} (h : lo ≤ a)
    (hl : risingFrom lo l = true) : risingFrom lo (insertCell a v l) = true := by
  induction l generalizing lo with
  | nil => simp [insertCell, risingFrom, h]
  | cons c rest ih =>
    obtain ⟨b, u⟩ := c
    simp only [risingFrom, Bool.and_eq_true, decide_eq_true_eq] at hl
    simp only [insertCell]
    split_ifs with h1 h2
    · subst h1; simpa [risingFrom] using ⟨hl.1, hl.2⟩
    · simp only [risingFrom, Bool.and_eq_true, decide_eq_true_eq]
      exact ⟨h, by omega, hl.2⟩
    · simp only [risingFrom, Bool.and_eq_true, decide_eq_true_eq]
      exact ⟨hl.1, ih (by omega) hl.2⟩

theorem risingFrom_erase {lo : Nat} (a : Nat) {l : List (Nat × BitVec w)} (hl : risingFrom lo l = true) :
    risingFrom lo (eraseCell a l) = true := by
  induction l generalizing lo with
  | nil => rfl
  | cons c rest ih =>
    obtain ⟨b, u⟩ := c
    simp only [risingFrom, Bool.and_eq_true, decide_eq_true_eq] at hl
    simp only [eraseCell]
    split_ifs with h1
    · exact risingFrom_mono (by omega) (ih hl.2)
    · simp only [risingFrom, Bool.and_eq_true, decide_eq_true_eq]
      exact ⟨hl.1, ih hl.2⟩

theorem mem_insertCell {a : Nat} {v : BitVec w} {l : List (Nat × BitVec w)} {c : Nat × BitVec w}
    (h : c ∈ insertCell a v l) : c = (a, v) ∨ c ∈ l := by
  induction l with
  | nil => simpa [insertCell] using h
  | cons e rest ih =>
    obtain ⟨b, u⟩ := e
    simp only [insertCell] at h
    split_ifs at h with h1 h2
    · rcases List.mem_cons.1 h with h | h
      · exact .inl h
      · exact .inr (List.mem_cons_of_mem _ h)
    · rcases List.mem_cons.1 h with h | h
      · exact .inl h
      · exact .inr h
    · rcases List.mem_cons.1 h with h | h
      · exact .inr (h ▸ List.mem_cons_self)
      · rcases ih h with h | h
        · exact .inl h
        · exact .inr (List.mem_cons_of_mem _ h)

theorem mem_eraseCell {a : Nat} {l : List (Nat × BitVec w)} {c : Nat × BitVec w} (h : c ∈ eraseCell a l) : c ∈ l := by
  induction l with
  | nil => exact h
  | cons e rest ih =>
    obtain ⟨b, u⟩ := e
    simp only [eraseCell] at h
    split_ifs at h with h1
    · exact List.mem_cons_of_mem _ (ih h)
    · rcases List.mem_cons.1 h with h | h
      · exact h ▸ List.mem_cons_self
      · exact List.mem_cons_of_mem _ (ih h)

/-- Every write keeps the one form. -/
theorem Arr.wf_write {m : Arr w} (hm : m.wf = true) (a : Nat) (v : BitVec w) : (m.write a v).wf = true := by
  simp only [Arr.wf, Bool.and_eq_true, List.all_eq_true] at hm ⊢
  unfold Arr.write
  cases h : m.fill.absorbs v with
  | true => exact ⟨risingFrom_erase a hm.1, fun c hc => hm.2 c (mem_eraseCell hc)⟩
  | false =>
    refine ⟨risingFrom_insert v (Nat.zero_le _) hm.1, fun c hc => ?_⟩
    rcases mem_insertCell hc with rfl | hc
    · simp [h]
    · exact hm.2 c hc

@[simp] theorem Arr.wf_all (v : BitVec w) : (Arr.all v).wf = true := rfl

@[simp] theorem Arr.wf_free (k : Nat) (e : Config.Elem) : (Arr.free k e : Arr w).wf = true := rfl

theorem Arr.wf_writeRange (lo : Nat) (v : BitVec w) (n : Nat) {m : Arr w} (hm : m.wf = true) :
    (Arr.writeRange lo v n m).wf = true := by
  induction n generalizing m with
  | zero => exact hm
  | succ n ih => exact ih (Arr.wf_write hm _ _)

theorem lookupCell_lt {lo a : Nat} (h : a < lo) (d : BitVec w) {l : List (Nat × BitVec w)} (hl : risingFrom lo l = true) :
    lookupCell a d l = d := by
  induction l generalizing lo with
  | nil => rfl
  | cons c rest ih =>
    obtain ⟨b, u⟩ := c
    simp only [risingFrom, Bool.and_eq_true, decide_eq_true_eq] at hl
    rw [lookupCell, if_neg (by omega)]
    exact ih (by omega) hl.2

theorem cells_ext {lo : Nat} (d : BitVec w) {l m : List (Nat × BitVec w)} (hl : risingFrom lo l = true)
    (hm : risingFrom lo m = true) (nl : ∀ c ∈ l, c.2 ≠ d) (nm : ∀ c ∈ m, c.2 ≠ d)
    (h : ∀ a, lookupCell a d l = lookupCell a d m) : l = m := by
  induction l generalizing lo m with
  | nil =>
    cases m with
    | nil => rfl
    | cons c rest =>
      have := h c.1
      simp only [lookupCell, if_true] at this
      exact absurd this.symm (nm c List.mem_cons_self)
  | cons c rest ih =>
    obtain ⟨a, u⟩ := c
    cases m with
    | nil =>
      have := h a
      simp only [lookupCell, if_true] at this
      exact absurd this (nl (a, u) List.mem_cons_self)
    | cons e rest' =>
      obtain ⟨b, v⟩ := e
      simp only [risingFrom, Bool.and_eq_true, decide_eq_true_eq] at hl hm
      have hab : a = b := by
        rcases Nat.lt_trichotomy a b with hlt | heq | hgt
        · have := h a
          rw [lookupCell, if_pos rfl, lookupCell, if_neg (by omega), lookupCell_lt (by omega) d hm.2] at this
          exact absurd this (nl (a, u) List.mem_cons_self)
        · exact heq
        · have := h b
          rw [lookupCell, if_neg (by omega), lookupCell_lt (by omega) d hl.2, lookupCell, if_pos rfl] at this
          exact absurd this.symm (nm (b, v) List.mem_cons_self)
      subst hab
      have huv : u = v := by simpa [lookupCell] using h a
      subst huv
      congr 1
      refine ih hl.2 hm.2 (fun c hc => nl c (List.mem_cons_of_mem _ hc)) (fun c hc => nm c (List.mem_cons_of_mem _ hc)) ?_
      intro c
      by_cases hc : c = a
      · subst hc
        rw [lookupCell_lt (by omega) d hl.2, lookupCell_lt (by omega) d hm.2]
      · simpa [lookupCell, hc] using h c

/-- Two arrays in the one form over the same constant that read alike are equal data. -/
theorem Arr.ext_of_read {m n : Arr w} {v : BitVec w} (fm : m.fill = .const v) (fn : n.fill = .const v)
    (hm : m.wf = true) (hn : n.wf = true) (h : ∀ a, m.read a = n.read a) : m = n := by
  obtain ⟨f, l⟩ := m
  obtain ⟨g, k⟩ := n
  dsimp only at fm fn
  subst fm; subst fn
  simp only [Arr.wf, Bool.and_eq_true, List.all_eq_true, Fill.absorbs, Bool.not_eq_true', decide_eq_false_iff_not] at hm hn
  congr 1
  exact cells_ext v hm.1 hn.1 (fun c hc e => hm.2 c hc e.symm) (fun c hc e => hn.2 c hc e.symm) h

end Sys2Proof.Machine
end

