-- ==== Sys2Proof/Laws/Ops.lean ====
section
/-! SUPPORT. Sequences of statements: how they run, what each primitive can do, and properties of the state that every
statement keeps. -/

namespace Sys2Proof.Machine

variable {α β : Type}

/-! ### Running -/

theorem bind_apply (m : Op α) (f : α → Op β) (s : State) :
    (m >>= f) s = match m s with | .ok a t => f a t | .error e t => .error e t := by
  change EStateM.bind m f s = _
  unfold EStateM.bind
  cases m s <;> rfl

@[simp] theorem pure_apply (a : α) (s : State) : (pure a : Op α) s = .ok a s := rfl

@[simp] theorem getS_bind (f : State → Op β) (s : State) : (getS >>= f) s = f s s := rfl

@[simp] theorem upd_apply (f : State → State) (s : State) : upd f s = .ok () (f s) := rfl

@[simp] theorem upd_bind (f : State → State) (g : Unit → Op β) (s : State) : (upd f >>= g) s = g () (f s) := rfl

@[simp] theorem raise_apply (c : FCode) (s : State) : (raise c : Op α) s = .error (.raise c) s := rfl

@[simp] theorem diverge_apply (s : State) : (diverge : Op α) s = .error .diverge s := rfl

@[simp] theorem whenOp_true (m : Op Unit) : whenOp true m = m := rfl

@[simp] theorem whenOp_false (m : Op Unit) : whenOp false m = pure () := rfl

theorem bind_of_ok {m : Op α} {f : α → Op β} {s t : State} {a : α} (h : m s = .ok a t) : (m >>= f) s = f a t := by
  rw [bind_apply, h]

theorem bind_of_error {m : Op α} {f : α → Op β} {s t : State} {e : Halt} (h : m s = .error e t) :
    (m >>= f) s = .error e t := by
  rw [bind_apply, h]

/-- A sequence that ends normally did so in both parts. -/
theorem bind_eq_ok {m : Op α} {f : α → Op β} {s u : State} {b : β} :
    (m >>= f) s = .ok b u ↔ ∃ a t, m s = .ok a t ∧ f a t = .ok b u := by
  rw [bind_apply]
  cases h : m s with
  | ok a t => simp
  | error e t => simp

theorem finish_of_ok {m : Op α} {s t : State} {a : α} (h : m s = .ok a t) : finish m s = .next t := by
  simp [finish, h]

theorem finish_of_raise {m : Op α} {s t : State} {c : FCode} (h : m s = .error (.raise c) t) :
    finish m s = .next (takeFault c t) := by
  simp [finish, h]

/-- Everything a finished sequence that answers a next state can have done. -/
theorem finish_eq_next {m : Op α} {s u : State} (h : finish m s = .next u) :
    (∃ a, m s = .ok a u) ∨ (∃ c t, m s = .error (.raise c) t ∧ u = takeFault c t) := by
  unfold finish at h
  cases hm : m s with
  | ok a t => rw [hm] at h; injection h with h; exact .inl ⟨a, h ▸ rfl⟩
  | error e t =>
    rw [hm] at h
    cases e with
    | raise c => injection h with h; exact .inr ⟨c, t, rfl, h.symm⟩
    | diverge => cases h

/-- If the next state is not `FAULT`, no statement raised. -/
theorem finish_eq_next_of_not_fault {m : Op α} {s u : State} (h : finish m s = .next u) (hu : u.top ≠ .fault) :
    ∃ a, m s = .ok a u := by
  rcases finish_eq_next h with h | ⟨c, t, _, rfl⟩
  · exact h
  · exact absurd rfl hu

theorem finishRet_of_ok {m : Op α} {res : State → α → OpResult} {s t : State} {a : α} (h : m s = .ok a t) :
    finishRet m res s = .next { t with ret := res t a } := by
  simp [finishRet, finish, bind_apply, h]

/-! ### Primitives: everything each can do -/

theorem readText_ok {u : Nat} {s : State} (h : u < Config.textSize) : readText u s = .ok (s.text.read u) s := by
  simp [readText, h]

theorem readText_fault {u : Nat} {s : State} (h : ¬ u < Config.textSize) : readText u s = .error (.raise .window) s := by
  simp [readText, h]

theorem readText_eq_ok {u : Nat} {s t : State} {b : Byte} (h : readText u s = .ok b t) :
    u < Config.textSize ∧ b = s.text.read u ∧ t = s := by
  unfold readText at h; split_ifs at h with hu; injection h with h1 h2; exact ⟨hu, h1.symm, h2.symm⟩

theorem writeText_ok {u : Nat} {b : Byte} {s : State} (h : u < Config.textSize) :
    writeText u b s = .ok () { s with text := s.text.write u b } := by
  simp [writeText, h]

theorem readLink_ok {l : Link} {i : Nat} {s : State} (h : i < Config.nodeCount) (hv : (s.link l).read i ≤ Config.nil) :
    readLink l i s = .ok ((s.link l).read i) s := by
  simp [readLink, h, hv]

theorem readLink_eq_ok {l : Link} {i : Nat} {s t : State} {v : Node} (h : readLink l i s = .ok v t) :
    i < Config.nodeCount ∧ v = (s.link l).read i ∧ (s.link l).read i ≤ Config.nil ∧ t = s := by
  unfold readLink at h
  split_ifs at h with hi hv
  injection h with h1 h2
  exact ⟨hi, h1.symm, hv, h2.symm⟩

theorem writeLink_ok {l : Link} {i : Nat} {v : Node} {s : State} (h : i < Config.nodeCount) :
    writeLink l i v s = .ok () (s.setLink l ((s.link l).write i v)) := by
  simp [writeLink, h]

theorem writeLink_eq_ok {l : Link} {i : Nat} {v : Node} {s t : State} (h : writeLink l i v s = .ok () t) :
    i < Config.nodeCount ∧ t = s.setLink l ((s.link l).write i v) := by
  unfold writeLink at h; split_ifs at h with hi; injection h with h1 h2; exact ⟨hi, h2.symm⟩

theorem setDad_nil (v : Node) (s : State) : setDad Config.nil v s = .ok () s := by
  simp [setDad]

theorem setDad_ok {i v : Node} {s : State} (h : i ≠ Config.nil) (hi : i.toNat < Config.nodeCount) :
    setDad i v s = .ok () { s with dad := s.dad.write i.toNat v } := by
  unfold setDad; rw [if_neg h]; exact writeLink_ok hi

theorem readCb_ok {i : Nat} {s : State} (h : i < Config.cbSize) : readCb i s = .ok (s.cb.read i) s := by
  simp [readCb, h]

theorem writeCb_ok {i : Nat} {b : Byte} {s : State} (h : i < Config.cbSize) :
    writeCb i b s = .ok () { s with cb := s.cb.write i b } := by
  simp [writeCb, h]

theorem inByte_ok {a : Nat} {s : State} (h : a < s.inLen.toNat) : inByte a s = .ok (s.inBuf.read a) s := by
  simp [inByte, h]

theorem nextByte_ok {s : State} (h : s.ip.toNat < s.inLen.toNat) :
    nextByte s = .ok (s.inBuf.read s.ip.toNat) { s with ip := s.ip + 1 } := by
  unfold nextByte
  rw [getS_bind, bind_of_ok (inByte_ok h)]
  rfl

theorem emit_ok {P : Config.Params} {v : Byte} {s : State} (h : s.outLen.toNat + 1 < 2 ^ P.lenW) :
    emit P v s = .ok () { s with outBuf := s.outBuf.write s.outLen.toNat v, outLen := s.outLen + 1 } := by
  unfold emit; rw [if_neg (Nat.not_le.2 h)]

theorem emit_fault {P : Config.Params} {v : Byte} {s : State} (h : 2 ^ P.lenW ≤ s.outLen.toNat + 1) :
    emit P v s = .error (.raise .len) s := by
  unfold emit; rw [if_pos h]

/-! ### Properties of the state that statements keep -/

/-- Whether the sequence ends normally or early, the property holds of the state it leaves. -/
def Keeps (P : State → Prop) (m : Op α) : Prop :=
  ∀ s, P s → match m s with | .ok _ t => P t | .error _ t => P t

variable {P : State → Prop}

theorem Keeps.of_ok {m : Op α} (h : Keeps P m) {s t : State} {a : α} (hs : P s) (hm : m s = .ok a t) : P t := by
  have := h s hs; rw [hm] at this; exact this

theorem Keeps.of_error {m : Op α} (h : Keeps P m) {s t : State} {e : Halt} (hs : P s) (hm : m s = .error e t) : P t := by
  have := h s hs; rw [hm] at this; exact this

theorem keeps_pure (a : α) : Keeps P (pure a : Op α) := fun _ hs => hs

theorem keeps_raise (c : FCode) : Keeps P (raise c : Op α) := fun _ hs => hs

theorem keeps_diverge : Keeps P (diverge : Op α) := fun _ hs => hs

theorem keeps_getS : Keeps P getS := fun _ hs => hs

theorem keeps_upd {f : State → State} (h : ∀ s, P s → P (f s)) : Keeps P (upd f) := h

theorem Keeps.bind {m : Op α} {f : α → Op β} (hm : Keeps P m) (hf : ∀ a, Keeps P (f a)) : Keeps P (m >>= f) := by
  intro s hs
  rw [bind_apply]
  cases h : m s with
  | ok a t => exact hf a t (hm.of_ok hs h)
  | error e t => exact hm.of_error hs h

theorem Keeps.whenOp {m : Op Unit} (c : Bool) (hm : Keeps P m) : Keeps P (whenOp c m) := by
  cases c with
  | true => exact hm
  | false => exact keeps_pure ()

/-- A sequence chosen by looking at the state. -/
theorem keeps_choose {m : State → Op α} (h : ∀ s, Keeps P (m s)) : Keeps P (fun s => m s s) := fun s hs => h s s hs

theorem keeps_readText (u : Nat) : Keeps P (readText u) := by
  intro s hs; unfold readText; split_ifs <;> exact hs

theorem keeps_readLink (l : Link) (i : Nat) : Keeps P (readLink l i) := by
  intro s hs; unfold readLink; split_ifs <;> exact hs

theorem keeps_readCb (i : Nat) : Keeps P (readCb i) := by
  intro s hs; unfold readCb; split_ifs <;> exact hs

theorem keeps_inByte (a : Nat) : Keeps P (inByte a) := by
  intro s hs; unfold inByte; split_ifs <;> exact hs

theorem keeps_writeLink {l : Link} {i : Nat} {v : Node} (h : ∀ s m, P s → P (s.setLink l m)) : Keeps P (writeLink l i v) := by
  intro s hs
  unfold writeLink
  split_ifs with hi
  · exact h s _ hs
  · exact hs

theorem keeps_setDad {i v : Node} (h : ∀ s m, P s → P (s.setLink .dad m)) : Keeps P (setDad i v) := by
  unfold setDad
  split_ifs
  · exact keeps_pure ()
  · exact keeps_writeLink h

/-- A property that a sequence keeps and that taking a fault keeps holds of its next state. -/
theorem Keeps.finish {m : Op α} (hm : Keeps P m) (hf : ∀ c s, P s → P (takeFault c s)) {s t : State} (hs : P s)
    (h : finish m s = .next t) : P t := by
  rcases finish_eq_next h with ⟨a, ha⟩ | ⟨c, u, hu, rfl⟩
  · exact hm.of_ok hs ha
  · exact hf c u (hm.of_error hs hu)

end Sys2Proof.Machine
end

