-- ==== Sys2Proof/Machine/Params.lean ====
section
/-! DEFINITION. The whole machine with the parameters of R5 as arguments. `exec`, `step` and `core`, whose types the host
fixes, are this machine at the default values (Laws/Params.lean; log 11). -/

namespace Sys2Proof.Machine

/-- The meaning of every instruction for parameters `P`. -/
def execAt (P : Config.Params) (i : Instr) (s : State) : Host.Outcome State Fault Refusal :=
  match i with
  | .cmdCompress => finish (opCompress P) s
  | .cmdCompressHdr => finish (opCompressHdr P) s
  | .cmdDecompress => finish (opDecompress P) s
  | .cmdDecompressAll => finish (opDecompressAll P) s
  | .cmdDecompressAllHdr => finish (opDecompressAllHdr P) s
  | .lit b => finish (opLitItem P b) s
  | .start => finish (opStart P) s
  | .encRun => finish (opEncRun P) s
  | .eInit => finish (opEInit P) s
  | .eSeedFill => finish (opESeedFill P) s
  | .eSeedIndex => finish (opESeedIndex P) s
  | .eBlock => finish (opEBlock P) s
  | .eFinal => finish (opEFinal P) s
  | .decRun bounded => finish (opDecRun P bounded) s
  | .dInit => finish (opDInit P) s
  | .dLit => finish (opDLit P) s
  | .dCopy => finish (opDCopy P s.bounded) s
  | .guard => finishRet (opGuard P) (fun _ trips => .trips trips) s
  | .cmdReserved0 | .cmdReserved6 | .cmdReserved7 | .ctrl _ | .matchTok _ _ | .hdr _ | .reset
  | .winClear | .winWrite _ _ | .winRead _ | .winReadLa _ _ | .winPut _
  | .idxInit | .idxInsert _ | .idxDelete _ | .idxSearch _
  | .eSelect | .eAdvance | .eDrain | .eEnd | .dCheck | .dFlag | .dMatch | .dStop | .hdrCheck => exec i s

/-- One step for parameters `P`. -/
def stepAt (P : Config.Params) (s : State) : Host.Outcome State Fault Refusal := stepOf (execAt P) P s

/-- The machine for parameters `P`. -/
def coreAt (P : Config.Params) : Host.Core where
  State := State
  Fault := Fault
  Refusal := Refusal
  step := stepAt P
  reset := State.reset

end Sys2Proof.Machine
end

