-- ==== Sys2Proof/Laws/Params.lean ====
section
/-! SUPPORT. `exec`, `step` and `core` are the machine of Machine/Params.lean at the values of R5. -/

namespace Sys2Proof.Machine

theorem params_legal : Config.params.legal = true := by decide

theorem execAt_params (i : Instr) (s : State) : execAt Config.params i s = exec i s := by cases i <;> rfl

theorem stepAt_params (s : State) : stepAt Config.params s = step s := by
  unfold stepAt step
  rw [show execAt Config.params = exec from funext fun i => funext (execAt_params i)]

theorem coreAt_params : coreAt Config.params = Sys2Proof.core := by
  unfold coreAt Sys2Proof.core
  congr 1
  exact funext stepAt_params

/-- At the default `LEN_W` a length register holds every 32-bit value. -/
@[simp] theorem lenBits_params (v : Len) : lenBits Config.params v = v := by
  have h : v.toNat % 2 ^ 32 = v.toNat := Nat.mod_eq_of_lt v.isLt
  show BitVec.ofNat 32 (v.toNat % 2 ^ 32) = v
  rw [h]; simp

end Sys2Proof.Machine
end

