-- ==== Sys2Proof/Laws/PerInstr.lean ====
section
/-! SUPPORT. Per-instruction family `EncodedWidth`: the length of every encoding (R61, R63, R64, R67, R71), and that only
the operations of format INTERNAL have none. -/

namespace Sys2Proof.Laws

/-- The bytes of an item of each place: one for a value of `CMD`, a control byte or a LITERAL, two for a MATCH, four for
the header. -/
def EncodedWidth.bytesOf : Place → Nat
  | .cmd | .ctrl | .lit => 1
  | .matchTok => 2
  | .hdr => 4

/-- Wherever an item encodes, its bytes are as many as its place has, and the decoder reads all of them and no more. -/
def EncodedWidth.Statement (i : Instr) : Prop :=
  ∀ place bytes, encode i = some (place, bytes) →
    bytes.length = EncodedWidth.bytesOf place ∧ ∃ j, decode place bytes = .ok (j, [])

theorem EncodedWidth.cmdCompress : EncodedWidth.Statement (.cmdCompress) := by
  intro place bytes h
  cases h
  exact ⟨rfl, _, rfl⟩

theorem EncodedWidth.cmdCompressHdr : EncodedWidth.Statement (.cmdCompressHdr) := by
  intro place bytes h
  cases h
  exact ⟨rfl, _, rfl⟩

theorem EncodedWidth.cmdDecompress : EncodedWidth.Statement (.cmdDecompress) := by
  intro place bytes h
  cases h
  exact ⟨rfl, _, rfl⟩

theorem EncodedWidth.cmdDecompressAll : EncodedWidth.Statement (.cmdDecompressAll) := by
  intro place bytes h
  cases h
  exact ⟨rfl, _, rfl⟩

theorem EncodedWidth.cmdDecompressAllHdr : EncodedWidth.Statement (.cmdDecompressAllHdr) := by
  intro place bytes h
  cases h
  exact ⟨rfl, _, rfl⟩

theorem EncodedWidth.cmdReserved0 : EncodedWidth.Statement (.cmdReserved0) := by
  intro place bytes h
  cases h
  exact ⟨rfl, _, rfl⟩

theorem EncodedWidth.cmdReserved6 : EncodedWidth.Statement (.cmdReserved6) := by
  intro place bytes h
  cases h
  exact ⟨rfl, _, rfl⟩

theorem EncodedWidth.cmdReserved7 : EncodedWidth.Statement (.cmdReserved7) := by
  intro place bytes h
  cases h
  exact ⟨rfl, _, rfl⟩

theorem EncodedWidth.ctrl (flags : Byte) : EncodedWidth.Statement (.ctrl flags) := by
  intro place bytes h
  cases h
  exact ⟨rfl, _, rfl⟩

theorem EncodedWidth.lit (b : Byte) : EncodedWidth.Statement (.lit b) := by
  intro place bytes h
  cases h
  exact ⟨rfl, _, rfl⟩

theorem EncodedWidth.matchTok (pos : Pos) (lenc : BitVec 4) : EncodedWidth.Statement (.matchTok pos lenc) := by
  intro place bytes h
  cases h
  exact ⟨rfl, _, rfl⟩

theorem EncodedWidth.hdr (len : BitVec 32) : EncodedWidth.Statement (.hdr len) := by
  intro place bytes h
  cases h
  exact ⟨rfl, _, rfl⟩

theorem EncodedWidth.start : EncodedWidth.Statement (.start) := fun _ _ h => nomatch h

theorem EncodedWidth.reset : EncodedWidth.Statement (.reset) := fun _ _ h => nomatch h

theorem EncodedWidth.winClear : EncodedWidth.Statement (.winClear) := fun _ _ h => nomatch h

theorem EncodedWidth.winWrite (pos : Nat) (b : Byte) : EncodedWidth.Statement (.winWrite pos b) := fun _ _ h => nomatch h

theorem EncodedWidth.winRead (x : Nat) : EncodedWidth.Statement (.winRead x) := fun _ _ h => nomatch h

theorem EncodedWidth.winReadLa (p i : Nat) : EncodedWidth.Statement (.winReadLa p i) := fun _ _ h => nomatch h

theorem EncodedWidth.winPut (b : Byte) : EncodedWidth.Statement (.winPut b) := fun _ _ h => nomatch h

theorem EncodedWidth.idxInit : EncodedWidth.Statement (.idxInit) := fun _ _ h => nomatch h

theorem EncodedWidth.idxInsert (r : Nat) : EncodedWidth.Statement (.idxInsert r) := fun _ _ h => nomatch h

theorem EncodedWidth.idxDelete (p : Nat) : EncodedWidth.Statement (.idxDelete p) := fun _ _ h => nomatch h

theorem EncodedWidth.idxSearch (r : Nat) : EncodedWidth.Statement (.idxSearch r) := fun _ _ h => nomatch h

theorem EncodedWidth.encRun : EncodedWidth.Statement (.encRun) := fun _ _ h => nomatch h

theorem EncodedWidth.eInit : EncodedWidth.Statement (.eInit) := fun _ _ h => nomatch h

theorem EncodedWidth.eSeedFill : EncodedWidth.Statement (.eSeedFill) := fun _ _ h => nomatch h

theorem EncodedWidth.eSeedIndex : EncodedWidth.Statement (.eSeedIndex) := fun _ _ h => nomatch h

theorem EncodedWidth.eSelect : EncodedWidth.Statement (.eSelect) := fun _ _ h => nomatch h

theorem EncodedWidth.eBlock : EncodedWidth.Statement (.eBlock) := fun _ _ h => nomatch h

theorem EncodedWidth.eAdvance : EncodedWidth.Statement (.eAdvance) := fun _ _ h => nomatch h

theorem EncodedWidth.eDrain : EncodedWidth.Statement (.eDrain) := fun _ _ h => nomatch h

theorem EncodedWidth.eFinal : EncodedWidth.Statement (.eFinal) := fun _ _ h => nomatch h

theorem EncodedWidth.eEnd : EncodedWidth.Statement (.eEnd) := fun _ _ h => nomatch h

theorem EncodedWidth.decRun (bounded : Bool) : EncodedWidth.Statement (.decRun bounded) := fun _ _ h => nomatch h

theorem EncodedWidth.dInit : EncodedWidth.Statement (.dInit) := fun _ _ h => nomatch h

theorem EncodedWidth.dCheck : EncodedWidth.Statement (.dCheck) := fun _ _ h => nomatch h

theorem EncodedWidth.dFlag : EncodedWidth.Statement (.dFlag) := fun _ _ h => nomatch h

theorem EncodedWidth.dLit : EncodedWidth.Statement (.dLit) := fun _ _ h => nomatch h

theorem EncodedWidth.dMatch : EncodedWidth.Statement (.dMatch) := fun _ _ h => nomatch h

theorem EncodedWidth.dCopy : EncodedWidth.Statement (.dCopy) := fun _ _ h => nomatch h

theorem EncodedWidth.dStop : EncodedWidth.Statement (.dStop) := fun _ _ h => nomatch h

theorem EncodedWidth.hdrCheck : EncodedWidth.Statement (.hdrCheck) := fun _ _ h => nomatch h

theorem EncodedWidth.guard : EncodedWidth.Statement (.guard) := fun _ _ h => nomatch h

end Sys2Proof.Laws
end

