-- ==== Sys2Proof/Laws/State.lean ====
section
/-! SUPPORT. The named updates of State, field by field: the fields each leaves alone and the ones it writes. -/

namespace Sys2Proof.Machine

/-! ### Link arrays -/

@[simp] theorem State.link_lson (s : State) : s.link .lson = s.lson := rfl
@[simp] theorem State.link_rson (s : State) : s.link .rson = s.rson := rfl
@[simp] theorem State.link_dad (s : State) : s.link .dad = s.dad := rfl
@[simp] theorem State.setLink_lson (s : State) (m : Arr 13) : s.setLink .lson m = { s with lson := m } := rfl
@[simp] theorem State.setLink_rson (s : State) (m : Arr 13) : s.setLink .rson m = { s with rson := m } := rfl
@[simp] theorem State.setLink_dad (s : State) (m : Arr 13) : s.setLink .dad m = { s with dad := m } := rfl

@[simp] theorem State.setLink_text (s : State) (l : Link) (m : Arr 13) : (s.setLink l m).text = s.text := by cases l <;> rfl
@[simp] theorem State.setLink_wp (s : State) (l : Link) (m : Arr 13) : (s.setLink l m).wp = s.wp := by cases l <;> rfl
@[simp] theorem State.setLink_matchPos (s : State) (l : Link) (m : Arr 13) : (s.setLink l m).matchPos = s.matchPos := by cases l <;> rfl
@[simp] theorem State.setLink_matchLen (s : State) (l : Link) (m : Arr 13) : (s.setLink l m).matchLen = s.matchLen := by cases l <;> rfl
@[simp] theorem State.setLink_iP (s : State) (l : Link) (m : Arr 13) : (s.setLink l m).iP = s.iP := by cases l <;> rfl
@[simp] theorem State.setLink_iCmp (s : State) (l : Link) (m : Arr 13) : (s.setLink l m).iCmp = s.iCmp := by cases l <;> rfl
@[simp] theorem State.setLink_iI (s : State) (l : Link) (m : Arr 13) : (s.setLink l m).iI = s.iI := by cases l <;> rfl
@[simp] theorem State.setLink_dQ (s : State) (l : Link) (m : Arr 13) : (s.setLink l m).dQ = s.dQ := by cases l <;> rfl
@[simp] theorem State.setLink_eR (s : State) (l : Link) (m : Arr 13) : (s.setLink l m).eR = s.eR := by cases l <;> rfl
@[simp] theorem State.setLink_eLen (s : State) (l : Link) (m : Arr 13) : (s.setLink l m).eLen = s.eLen := by cases l <;> rfl
@[simp] theorem State.setLink_eLast (s : State) (l : Link) (m : Arr 13) : (s.setLink l m).eLast = s.eLast := by cases l <;> rfl
@[simp] theorem State.setLink_eI (s : State) (l : Link) (m : Arr 13) : (s.setLink l m).eI = s.eI := by cases l <;> rfl
@[simp] theorem State.setLink_cb (s : State) (l : Link) (m : Arr 13) : (s.setLink l m).cb = s.cb := by cases l <;> rfl
@[simp] theorem State.setLink_cbp (s : State) (l : Link) (m : Arr 13) : (s.setLink l m).cbp = s.cbp := by cases l <;> rfl
@[simp] theorem State.setLink_mask (s : State) (l : Link) (m : Arr 13) : (s.setLink l m).mask = s.mask := by cases l <;> rfl
@[simp] theorem State.setLink_dflags (s : State) (l : Link) (m : Arr 13) : (s.setLink l m).dflags = s.dflags := by cases l <;> rfl
@[simp] theorem State.setLink_dB0 (s : State) (l : Link) (m : Arr 13) : (s.setLink l m).dB0 = s.dB0 := by cases l <;> rfl
@[simp] theorem State.setLink_dB1 (s : State) (l : Link) (m : Arr 13) : (s.setLink l m).dB1 = s.dB1 := by cases l <;> rfl
@[simp] theorem State.setLink_dK (s : State) (l : Link) (m : Arr 13) : (s.setLink l m).dK = s.dK := by cases l <;> rfl
@[simp] theorem State.setLink_dEnd (s : State) (l : Link) (m : Arr 13) : (s.setLink l m).dEnd = s.dEnd := by cases l <;> rfl
@[simp] theorem State.setLink_ip (s : State) (l : Link) (m : Arr 13) : (s.setLink l m).ip = s.ip := by cases l <;> rfl
@[simp] theorem State.setLink_inLim (s : State) (l : Link) (m : Arr 13) : (s.setLink l m).inLim = s.inLim := by cases l <;> rfl
@[simp] theorem State.setLink_top (s : State) (l : Link) (m : Arr 13) : (s.setLink l m).top = s.top := by cases l <;> rfl
@[simp] theorem State.setLink_eState (s : State) (l : Link) (m : Arr 13) : (s.setLink l m).eState = s.eState := by cases l <;> rfl
@[simp] theorem State.setLink_dState (s : State) (l : Link) (m : Arr 13) : (s.setLink l m).dState = s.dState := by cases l <;> rfl
@[simp] theorem State.setLink_inBuf (s : State) (l : Link) (m : Arr 13) : (s.setLink l m).inBuf = s.inBuf := by cases l <;> rfl
@[simp] theorem State.setLink_inLen (s : State) (l : Link) (m : Arr 13) : (s.setLink l m).inLen = s.inLen := by cases l <;> rfl
@[simp] theorem State.setLink_outBuf (s : State) (l : Link) (m : Arr 13) : (s.setLink l m).outBuf = s.outBuf := by cases l <;> rfl
@[simp] theorem State.setLink_outLen (s : State) (l : Link) (m : Arr 13) : (s.setLink l m).outLen = s.outLen := by cases l <;> rfl
@[simp] theorem State.setLink_cmd (s : State) (l : Link) (m : Arr 13) : (s.setLink l m).cmd = s.cmd := by cases l <;> rfl
@[simp] theorem State.setLink_maxOut (s : State) (l : Link) (m : Arr 13) : (s.setLink l m).maxOut = s.maxOut := by cases l <;> rfl
@[simp] theorem State.setLink_stop (s : State) (l : Link) (m : Arr 13) : (s.setLink l m).stop = s.stop := by cases l <;> rfl
@[simp] theorem State.setLink_fcode (s : State) (l : Link) (m : Arr 13) : (s.setLink l m).fcode = s.fcode := by cases l <;> rfl
@[simp] theorem State.setLink_freeCtr (s : State) (l : Link) (m : Arr 13) : (s.setLink l m).freeCtr = s.freeCtr := by cases l <;> rfl
@[simp] theorem State.setLink_ret (s : State) (l : Link) (m : Arr 13) : (s.setLink l m).ret = s.ret := by cases l <;> rfl
@[simp] theorem State.setLink_host (s : State) (l : Link) (m : Arr 13) : (s.setLink l m).host = s.host := by cases l <;> rfl

/-- The array just set is the one read. -/
@[simp] theorem State.link_setLink_same (s : State) (l : Link) (m : Arr 13) : (s.setLink l m).link l = m := by
  cases l <;> rfl

/-- The other arrays are unchanged. -/
theorem State.link_setLink_other (s : State) {l k : Link} (h : k ≠ l) (m : Arr 13) : (s.setLink l m).link k = s.link k := by
  cases l <;> cases k <;> first | rfl | exact absurd rfl h

/-! ### Taking a fault (R173) -/

@[simp] theorem takeFault_text (c : FCode) (s : State) : (takeFault c s).text = s.text := rfl
@[simp] theorem takeFault_wp (c : FCode) (s : State) : (takeFault c s).wp = s.wp := rfl
@[simp] theorem takeFault_lson (c : FCode) (s : State) : (takeFault c s).lson = s.lson := rfl
@[simp] theorem takeFault_rson (c : FCode) (s : State) : (takeFault c s).rson = s.rson := rfl
@[simp] theorem takeFault_dad (c : FCode) (s : State) : (takeFault c s).dad = s.dad := rfl
@[simp] theorem takeFault_matchPos (c : FCode) (s : State) : (takeFault c s).matchPos = s.matchPos := rfl
@[simp] theorem takeFault_matchLen (c : FCode) (s : State) : (takeFault c s).matchLen = s.matchLen := rfl
@[simp] theorem takeFault_iP (c : FCode) (s : State) : (takeFault c s).iP = s.iP := rfl
@[simp] theorem takeFault_iCmp (c : FCode) (s : State) : (takeFault c s).iCmp = s.iCmp := rfl
@[simp] theorem takeFault_iI (c : FCode) (s : State) : (takeFault c s).iI = s.iI := rfl
@[simp] theorem takeFault_dQ (c : FCode) (s : State) : (takeFault c s).dQ = s.dQ := rfl
@[simp] theorem takeFault_eR (c : FCode) (s : State) : (takeFault c s).eR = s.eR := rfl
@[simp] theorem takeFault_eLen (c : FCode) (s : State) : (takeFault c s).eLen = s.eLen := rfl
@[simp] theorem takeFault_eLast (c : FCode) (s : State) : (takeFault c s).eLast = s.eLast := rfl
@[simp] theorem takeFault_eI (c : FCode) (s : State) : (takeFault c s).eI = s.eI := rfl
@[simp] theorem takeFault_cb (c : FCode) (s : State) : (takeFault c s).cb = s.cb := rfl
@[simp] theorem takeFault_cbp (c : FCode) (s : State) : (takeFault c s).cbp = s.cbp := rfl
@[simp] theorem takeFault_mask (c : FCode) (s : State) : (takeFault c s).mask = s.mask := rfl
@[simp] theorem takeFault_dflags (c : FCode) (s : State) : (takeFault c s).dflags = s.dflags := rfl
@[simp] theorem takeFault_dB0 (c : FCode) (s : State) : (takeFault c s).dB0 = s.dB0 := rfl
@[simp] theorem takeFault_dB1 (c : FCode) (s : State) : (takeFault c s).dB1 = s.dB1 := rfl
@[simp] theorem takeFault_dK (c : FCode) (s : State) : (takeFault c s).dK = s.dK := rfl
@[simp] theorem takeFault_dEnd (c : FCode) (s : State) : (takeFault c s).dEnd = s.dEnd := rfl
@[simp] theorem takeFault_ip (c : FCode) (s : State) : (takeFault c s).ip = s.ip := rfl
@[simp] theorem takeFault_inLim (c : FCode) (s : State) : (takeFault c s).inLim = s.inLim := rfl
@[simp] theorem takeFault_eState (c : FCode) (s : State) : (takeFault c s).eState = s.eState := rfl
@[simp] theorem takeFault_dState (c : FCode) (s : State) : (takeFault c s).dState = s.dState := rfl
@[simp] theorem takeFault_inBuf (c : FCode) (s : State) : (takeFault c s).inBuf = s.inBuf := rfl
@[simp] theorem takeFault_inLen (c : FCode) (s : State) : (takeFault c s).inLen = s.inLen := rfl
@[simp] theorem takeFault_cmd (c : FCode) (s : State) : (takeFault c s).cmd = s.cmd := rfl
@[simp] theorem takeFault_maxOut (c : FCode) (s : State) : (takeFault c s).maxOut = s.maxOut := rfl
@[simp] theorem takeFault_stop (c : FCode) (s : State) : (takeFault c s).stop = s.stop := rfl
@[simp] theorem takeFault_ret (c : FCode) (s : State) : (takeFault c s).ret = s.ret := rfl
@[simp] theorem takeFault_host (c : FCode) (s : State) : (takeFault c s).host = s.host := rfl
@[simp] theorem takeFault_fcode (c : FCode) (s : State) : (takeFault c s).fcode = some c := rfl
@[simp] theorem takeFault_top (c : FCode) (s : State) : (takeFault c s).top = .fault := rfl
@[simp] theorem takeFault_freeCtr (c : FCode) (s : State) : (takeFault c s).freeCtr = s.freeCtr + 1 := rfl

/-- The fault entry in the form statements use. -/
theorem tookFault_takeFault (c : FCode) (s : State) : tookFault c s (takeFault c s) := rfl

/-! ### Reset (R190) -/

@[simp] theorem resetState_top (s : State) : (resetState s).top = .idle := rfl
@[simp] theorem resetState_stop (s : State) : (resetState s).stop = .complete := rfl
@[simp] theorem resetState_fcode (s : State) : (resetState s).fcode = none := rfl
@[simp] theorem resetState_outLen (s : State) : (resetState s).outLen = 0 := rfl
@[simp] theorem resetState_cmd (s : State) : (resetState s).cmd = 0 := rfl
@[simp] theorem resetState_maxOut (s : State) : (resetState s).maxOut = 0 := rfl
@[simp] theorem resetState_inLen (s : State) : (resetState s).inLen = 0 := rfl
@[simp] theorem resetState_inBuf (s : State) : (resetState s).inBuf = s.inBuf := rfl
@[simp] theorem resetState_host (s : State) : (resetState s).host = s.host := rfl
@[simp] theorem resetState_ret (s : State) : (resetState s).ret = s.ret := rfl
@[simp] theorem resetState_freeCtr (s : State) : (resetState s).freeCtr = s.freeCtr + 1 := rfl

/-! ### What `START` writes first (R150) -/

@[simp] theorem startPrologue_text (s : State) : (startPrologue s).text = s.text := rfl
@[simp] theorem startPrologue_wp (s : State) : (startPrologue s).wp = s.wp := rfl
@[simp] theorem startPrologue_lson (s : State) : (startPrologue s).lson = s.lson := rfl
@[simp] theorem startPrologue_rson (s : State) : (startPrologue s).rson = s.rson := rfl
@[simp] theorem startPrologue_dad (s : State) : (startPrologue s).dad = s.dad := rfl
@[simp] theorem startPrologue_matchPos (s : State) : (startPrologue s).matchPos = s.matchPos := rfl
@[simp] theorem startPrologue_matchLen (s : State) : (startPrologue s).matchLen = s.matchLen := rfl
@[simp] theorem startPrologue_iP (s : State) : (startPrologue s).iP = s.iP := rfl
@[simp] theorem startPrologue_iCmp (s : State) : (startPrologue s).iCmp = s.iCmp := rfl
@[simp] theorem startPrologue_iI (s : State) : (startPrologue s).iI = s.iI := rfl
@[simp] theorem startPrologue_dQ (s : State) : (startPrologue s).dQ = s.dQ := rfl
@[simp] theorem startPrologue_eR (s : State) : (startPrologue s).eR = s.eR := rfl
@[simp] theorem startPrologue_eLen (s : State) : (startPrologue s).eLen = s.eLen := rfl
@[simp] theorem startPrologue_eLast (s : State) : (startPrologue s).eLast = s.eLast := rfl
@[simp] theorem startPrologue_eI (s : State) : (startPrologue s).eI = s.eI := rfl
@[simp] theorem startPrologue_cb (s : State) : (startPrologue s).cb = s.cb := rfl
@[simp] theorem startPrologue_cbp (s : State) : (startPrologue s).cbp = s.cbp := rfl
@[simp] theorem startPrologue_mask (s : State) : (startPrologue s).mask = s.mask := rfl
@[simp] theorem startPrologue_dflags (s : State) : (startPrologue s).dflags = s.dflags := rfl
@[simp] theorem startPrologue_dB0 (s : State) : (startPrologue s).dB0 = s.dB0 := rfl
@[simp] theorem startPrologue_dB1 (s : State) : (startPrologue s).dB1 = s.dB1 := rfl
@[simp] theorem startPrologue_dK (s : State) : (startPrologue s).dK = s.dK := rfl
@[simp] theorem startPrologue_dEnd (s : State) : (startPrologue s).dEnd = s.dEnd := rfl
@[simp] theorem startPrologue_ip (s : State) : (startPrologue s).ip = 0 := rfl
@[simp] theorem startPrologue_inLim (s : State) : (startPrologue s).inLim = s.inLen := rfl
@[simp] theorem startPrologue_top (s : State) : (startPrologue s).top = .busy := rfl
@[simp] theorem startPrologue_eState (s : State) : (startPrologue s).eState = s.eState := rfl
@[simp] theorem startPrologue_dState (s : State) : (startPrologue s).dState = s.dState := rfl
@[simp] theorem startPrologue_inBuf (s : State) : (startPrologue s).inBuf = s.inBuf := rfl
@[simp] theorem startPrologue_inLen (s : State) : (startPrologue s).inLen = s.inLen := rfl
@[simp] theorem startPrologue_outBuf (s : State) : (startPrologue s).outBuf = s.outBuf := rfl
@[simp] theorem startPrologue_outLen (s : State) : (startPrologue s).outLen = 0 := rfl
@[simp] theorem startPrologue_cmd (s : State) : (startPrologue s).cmd = s.cmd := rfl
@[simp] theorem startPrologue_maxOut (s : State) : (startPrologue s).maxOut = s.maxOut := rfl
@[simp] theorem startPrologue_stop (s : State) : (startPrologue s).stop = .complete := rfl
@[simp] theorem startPrologue_fcode (s : State) : (startPrologue s).fcode = none := rfl
@[simp] theorem startPrologue_freeCtr (s : State) : (startPrologue s).freeCtr = s.freeCtr := rfl
@[simp] theorem startPrologue_ret (s : State) : (startPrologue s).ret = s.ret := rfl
@[simp] theorem startPrologue_host (s : State) : (startPrologue s).host = s.host := rfl

end Sys2Proof.Machine
end

