-- ==== Sys2Proof/Laws/Window.lean ====
section
/-! SUPPORT. The window operations: everything each can do. -/

namespace Sys2Proof.Machine

/-- `TEXT` after `WIN.WRITE`: the position, and below 17 its mirror element. -/
def textAfterWrite (m : Arr 8) (pos : Nat) (b : Byte) : Arr 8 :=
  if pos < Config.mirrorSize then (m.write pos b).write (pos + Config.windowSize) b else m.write pos b

theorem read_textAfterWrite (m : Arr 8) (pos : Nat) (b : Byte) (u : Nat) :
    (textAfterWrite m pos b).read u = if u = pos ∨ (pos < 17 ∧ u = pos + 4096) then b else m.read u := by
  unfold textAfterWrite
  by_cases h : pos < Config.mirrorSize
  · have h' : pos < 17 := h
    rw [if_pos h, Arr.read_write, Arr.read_write]
    simp only [Config.windowSize, h', true_and]
    by_cases h1 : u = pos + 4096 <;> by_cases h2 : u = pos <;> simp [h1, h2]
  · have h' : ¬ pos < 17 := h
    rw [if_neg h, Arr.read_write]
    simp [h']

theorem wf_textAfterWrite {m : Arr 8} (hm : m.wf = true) (pos : Nat) (b : Byte) : (textAfterWrite m pos b).wf = true := by
  unfold textAfterWrite
  split_ifs
  · exact Arr.wf_write (Arr.wf_write hm _ _) _ _
  · exact Arr.wf_write hm _ _

theorem opWinWrite_ok {pos : Nat} (h : pos < Config.windowSize) (b : Byte) (s : State) :
    opWinWrite pos b s = .ok () { s with text := textAfterWrite s.text pos b } := by
  have h4 : pos < 4096 := h
  have ht : pos < Config.textSize := by simp only [Config.textSize]; omega
  unfold opWinWrite
  rw [if_pos h, bind_of_ok (writeText_ok ht)]
  by_cases hm : pos < Config.mirrorSize
  · have hm' : pos < 17 := hm
    have hu : pos + Config.windowSize < Config.textSize := by simp only [Config.windowSize, Config.textSize]; omega
    simp only [hm, decide_true, whenOp_true]
    rw [writeText_ok hu]
    simp [textAfterWrite, hm]
  · simp [hm, textAfterWrite]

theorem opWinWrite_fault {pos : Nat} (h : ¬ pos < Config.windowSize) (b : Byte) (s : State) :
    opWinWrite pos b s = .error (.raise .window) s := by
  unfold opWinWrite; rw [if_neg h]; rfl

theorem opWinRead_ok (x : Nat) (s : State) : opWinRead x s = .ok (s.text.read (x % 4096)) s := by
  have h : wrap x < Config.textSize := by
    have := Nat.mod_lt x (show 0 < 4096 by decide)
    simp only [wrap, Config.windowSize, Config.textSize]; omega
  exact readText_ok h

theorem opWinReadLa_ok {p i : Nat} (h : p + i < Config.textSize) (s : State) :
    opWinReadLa p i s = .ok (s.text.read (p + i)) s := readText_ok h

theorem opWinPut_ok (b : Byte) (s : State) :
    opWinPut b s = .ok s.wp { s with text := textAfterWrite s.text s.wp.toNat b, wp := s.wp + 1 } := by
  have h : s.wp.toNat < Config.windowSize := s.wp.isLt
  unfold opWinPut
  rw [getS_bind, bind_of_ok (opWinWrite_ok h b s)]
  rfl

end Sys2Proof.Machine
end

