-- ==== Sys2Proof/Tests/Slice0.lean ====
section
/-! SUPPORT. The model's own tests, their expected values written out from the spec's rules, examples and vectors
(95_test_vectors.md), and for each statement with hypotheses a witness that meets them. -/

namespace Sys2Proof.Tests

open Sys2Proof.Machine

set_option Elab.async false

/-! ### Helpers -/

/-- The state after reset with every array at one known value: zero bytes, NIL links. -/
def zeroed : State :=
  { State.reset with
    text := Arr.all 0, lson := Arr.all Config.nil, rson := Arr.all Config.nil, dad := Arr.all Config.nil,
    cb := Arr.all 0, inBuf := Arr.all 0, outBuf := Arr.all 0 }

/-- `zeroed` with the bytes in `IN`, `IN_LEN` and `IN_LIM` set. -/
def fed (bytes : List Byte) : State :=
  { zeroed with
    inBuf := writeBytes (Arr.all 0) 0 bytes
    inLen := BitVec.ofNat 32 bytes.length
    inLim := BitVec.ofNat 32 bytes.length }

/-- `zeroed` with bytes of the window and links as listed. -/
def window (cells : List (Nat × Byte)) : State := { zeroed with text := { fill := .const 0, cells := cells } }

/-- The state with links as listed, NIL elsewhere. -/
def linked (s : State) (l r d : List (Nat × Node)) : State :=
  { s with
    lson := { fill := .const Config.nil, cells := l }
    rson := { fill := .const Config.nil, cells := r }
    dad := { fill := .const Config.nil, cells := d } }

/-- The outcome is a next state for which the check holds. -/
def ends (o : Host.Outcome State Fault Refusal) (check : State → Bool) : Bool :=
  match o with
  | .next t => check t
  | .fault _ => false
  | .refused _ => false

/-- The result, `OUT[0 .. OUT_LEN-1]`. -/
def output (s : State) : List Byte := readBytes s.outBuf s.outLen.toNat 0

theorem ends_next {o : Host.Outcome State Fault Refusal} {check : State → Bool} (h : ends o check = true) :
    ∃ t, o = .next t ∧ check t = true := by
  cases o with
  | next t => exact ⟨t, rfl, h⟩
  | fault _ => cases h
  | refused _ => cases h

/-! ### Well-formedness: one ill-formed term for each check -/

theorem test_wf_winWrite : (Instr.winWrite 4096 0).wf = false ∧ (Instr.winWrite 4095 0).wf = true := by decide
theorem test_wf_winReadLa_position : (Instr.winReadLa 4096 0).wf = false ∧ (Instr.winReadLa 4095 17).wf = true := by decide
theorem test_wf_winReadLa_offset : (Instr.winReadLa 0 18).wf = false := by decide
theorem test_wf_idxInsert : (Instr.idxInsert 4096).wf = false ∧ (Instr.idxInsert 4095).wf = true := by decide
theorem test_wf_idxDelete : (Instr.idxDelete 4096).wf = false ∧ (Instr.idxDelete 4095).wf = true := by decide
theorem test_wf_idxSearch : (Instr.idxSearch 4096).wf = false ∧ (Instr.idxSearch 4095).wf = true := by decide

/-! ### Decoding: words written out from 30_encoding.md -/

/-- R71, R72: every code of `CMD`. -/
theorem test_decode_commands :
    decode .cmd [0b000] = .ok (.cmdReserved0, []) ∧ decode .cmd [0b001] = .ok (.cmdCompress, []) ∧
    decode .cmd [0b010] = .ok (.cmdCompressHdr, []) ∧ decode .cmd [0b011] = .ok (.cmdDecompress, []) ∧
    decode .cmd [0b100] = .ok (.cmdDecompressAll, []) ∧ decode .cmd [0b101] = .ok (.cmdDecompressAllHdr, []) ∧
    decode .cmd [0b110] = .ok (.cmdReserved6, []) ∧ decode .cmd [0b111] = .ok (.cmdReserved7, []) := by decide

/-- R34: `CMD` has three bits; R69: what is cut short is no item. -/
theorem test_decode_refuses :
    decode .cmd [0b1000] = .error .commandTooWide ∧ decode .ctrl [] = .error .truncated ∧
    decode .matchTok [0xEE] = .error .truncated ∧ decode .hdr [4, 0, 0] = .error .truncated := by decide

/-- R61, vectors X11 and X12: `M L L` is `06`, `L M L M L M L M` is `55`; the bytes after it are left. -/
theorem test_decode_ctrl :
    decode .ctrl [0x06, 0x41] = .ok (.ctrl 0b00000110, [0x41]) ∧ decode .ctrl [0x55] = .ok (.ctrl 0b01010101, []) := by
  decide

/-- R63. -/
theorem test_decode_lit : decode .lit [0x41, 0x42] = .ok (.lit 0b01000001, [0x42]) := by decide

/-- R64, R65, vectors X1, X2, X4, X7. -/
theorem test_decode_match :
    decode .matchTok [0x00, 0x00] = .ok (.matchTok 0 0, []) ∧
    decode .matchTok [0b11111111, 0b11111111] = .ok (.matchTok 4095 15, []) ∧
    decode .matchTok [0b11101110, 0b11111111] = .ok (.matchTok 4078 15, []) ∧
    decode .matchTok [0b00100011, 0b00010010] = .ok (.matchTok 291 2, []) := by decide

/-- R67, vectors X15, X16. -/
theorem test_decode_hdr :
    decode .hdr [0x50, 0x02, 0x00, 0x00] = .ok (.hdr 592, []) ∧
    decode .hdr [0x04, 0x03, 0x02, 0x01] = .ok (.hdr 0x01020304, []) := by decide

/-- R66, vectors X3, X5, X6, X8; R67, vector X15; an internal operation has no encoding. -/
theorem test_encode :
    encode (.matchTok 4078 0) = some (.matchTok, [0xEE, 0xF0]) ∧ encode (.matchTok 4061 0) = some (.matchTok, [0xDD, 0xF0]) ∧
    encode (.matchTok 256 7) = some (.matchTok, [0x00, 0x17]) ∧ encode (.matchTok 18 15) = some (.matchTok, [0x12, 0x0F]) ∧
    encode (.hdr 592) = some (.hdr, [0x50, 0x02, 0x00, 0x00]) ∧ encode .dCopy = none := by decide

/-- A table word has its first byte lowest: `EE F0` is 0xF0EE. -/
theorem test_decodeTableWord :
    decodeTableWord 16 0xF0EE = some (.matchTok 4078 0) ∧ decodeTableWord 8 0x55 = some (.ctrl 0x55) ∧
    decodeTableWord 3 5 = some .cmdDecompressAllHdr ∧ decodeTableWord 32 0x250 = some (.hdr 592) := by decide

/-- The step after `withFetchWord` runs the MATCH of the word, from reset. -/
theorem test_withFetchWord_match :
    ends (step (State.reset.withFetchWord 16 0xF6EE)) (fun t => t.dK == 4078 && t.dEnd == 4086 && t.ip == 2) = true := by
  decide +kernel

/-- The step after `withFetchWord` of a reserved command code is its fault (K2). -/
theorem test_withFetchWord_command :
    ends (step (State.reset.withFetchWord 3 6)) (fun t => t.top == .fault && t.fcode == some .badCmd) = true := by
  decide +kernel

/-! ### Reset and faults -/

/-- R190, vector K1. -/
theorem test_reset : ends (exec .reset { zeroed with top := .fault, fcode := some .len, cmd := 5, outLen := 9 })
    (fun t => t.status == 0 && t.cmd == 0 && t.outLen == 0) = true := by decide +kernel

/-- R35: `STATE` in bits 1:0, `STOP` in bits 4:2, `FCODE` in bits 8:5. -/
theorem test_status : ({ zeroed with top := .done, stop := .trunc } : State).status = 0b0000_011_10 ∧
    ({ zeroed with top := .fault, fcode := some .len } : State).status = 0b0101_000_11 := by decide

/-- R72, R150, vectors K2 and K3. -/
theorem test_start_reserved : ends (exec .start zeroed) (fun t => t.top == .fault && t.fcode == some .badCmd) = true ∧
    ends (exec .start { zeroed with top := .fault, fcode := some .badCmd, cmd := 1 })
      (fun t => t.top == .fault && t.fcode == some .badCmd) = true := by decide +kernel

/-- R72. -/
theorem test_reserved_codes : ends (exec .cmdReserved0 zeroed) (fun t => t.fcode == some .badCmd) = true ∧
    ends (exec .cmdReserved6 zeroed) (fun t => t.fcode == some .badCmd) = true ∧
    ends (exec .cmdReserved7 zeroed) (fun t => t.fcode == some .badCmd) = true := by decide +kernel

/-! ### Window (vectors W1 to W8) -/

theorem test_winClear : ends (exec .winClear (window [(0, 9), (4112, 9)]))
    (fun t => t.text.read 0 == 0 && t.text.read 4112 == 0) = true := by decide +kernel
theorem test_winWrite_mirrored : ends (exec (.winWrite 16 0xBB) zeroed)
    (fun t => t.text.read 16 == 0xBB && t.text.read 4112 == 0xBB) = true := by decide +kernel
theorem test_winWrite_plain : ends (exec (.winWrite 17 0xCC) zeroed) (fun t => t.text.cells == [(17, 0xCC)]) = true := by
  decide +kernel
theorem test_winRead : ends (exec (.winRead 4113) (window [(17, 0xCC)])) (fun t => t.ret == .byte 0xCC) = true ∧
    ends (exec (.winRead 8191) (window [(4095, 0xDD)])) (fun t => t.ret == .byte 0xDD) = true := by decide +kernel
theorem test_winReadLa : ends (exec (.winReadLa 4095 17) (window [(16, 0xBB), (4112, 0xBB)]))
    (fun t => t.ret == .byte 0xBB) = true := by decide +kernel
theorem test_winReadLa_fault : ends (exec (.winReadLa 4096 17) zeroed) (fun t => t.fcode == some .window) = true := by
  decide +kernel
theorem test_winPut_wraps : ends (exec (.winPut 1) { zeroed with wp := 4095 })
    (fun t => t.ret == .position 4095 && t.wp == 0 && t.text.cells == [(4095, 1)]) = true := by decide +kernel
theorem test_winPut_mirrored : ends (exec (.winPut 2) zeroed)
    (fun t => t.ret == .position 0 && t.wp == 1 && t.text.cells == [(0, 2), (4096, 2)]) = true := by decide +kernel

/-! ### Index (vectors I1 to I11, R106) -/

/-- I1. -/
theorem test_idxInit : ends (exec .idxInit (linked { zeroed with matchLen := 3 } [(4096, 1)] [(4161, 1)] [(1, 4161)]))
    (fun t => t.rson.read 4161 == Config.nil && t.dad.read 1 == Config.nil && t.matchLen == 0) = true := by decide +kernel

/-- I4: after I3, `IDX.INSERT(4075)`; the text is that of I2. -/
theorem test_idxInsert_descends : ends (exec (.idxInsert 4075) (linked
      (window [(4078, 0x41), (4079, 0x42), (4080, 0x43), (4081, 0x41), (4082, 0x42), (4083, 0x43), (4084, 0x41),
        (4085, 0x42), (4086, 0x43), (4087, 0x41), (4088, 0x42), (4089, 0x43)])
      [(4077, 4076)] [(4096, 4077)] [(4076, 4077), (4077, 4096)]))
    (fun t => t.matchPos == 4076 && t.matchLen == 2 && t.lson.read 4076 == 4075 && t.dad.read 4075 == 4076) = true := by
  decide +kernel

/-- I5, third insert: replacement. -/
theorem test_idxInsert_replaces : ends (exec (.idxInsert 500)
      (linked (window [(2017, 5)]) [] [(1000, 2000), (4096, 1000)] [(1000, 4096), (2000, 1000)]))
    (fun t => t.matchPos == 1000 && t.matchLen == 18 && t.lson.cells == [] &&
      t.rson.cells == [(500, 2000), (1000, 2000), (4096, 500)] && t.dad.cells == [(500, 4096), (2000, 500)]) = true := by
  decide +kernel

/-- I5, second insert, through `IDX.SEARCH`. -/
theorem test_idxSearch : ends (exec (.idxSearch 2000) (linked (window [(2017, 5)]) [] [(4096, 1000)] [(1000, 4096)]))
    (fun t => t.ret == .found 1000 17 && t.rson.read 1000 == 2000 && t.dad.read 2000 == 1000) = true := by decide +kernel

/-- I9, R106 example 1. -/
theorem test_idxDelete_deep : ends (exec (.idxDelete 10) (linked zeroed [(5, 2), (10, 5)] [(5, 8), (10, 20), (4161, 10)]
      [(2, 5), (5, 10), (8, 5), (10, 4161), (20, 10)]))
    (fun t => t.lson.cells == [(5, 2), (8, 5), (10, 5)] && t.rson.cells == [(8, 20), (10, 20), (4161, 8)] &&
      t.dad.cells == [(2, 5), (5, 8), (8, 4161), (20, 8)]) = true := by decide +kernel

/-- I10, R106 example 2. -/
theorem test_idxDelete_left : ends (exec (.idxDelete 10) (linked zeroed [(5, 2), (10, 5)] [(10, 20), (4161, 10)]
      [(2, 5), (5, 10), (10, 4161), (20, 10)]))
    (fun t => t.lson.read 5 == 2 && t.rson.read 5 == 20 && t.rson.read 4161 == 5 &&
      t.dad.cells == [(2, 5), (5, 4161), (20, 5)]) = true := by decide +kernel

/-! ### Encoder -/

/-- R111. -/
theorem test_eInit : ends (exec .eInit { zeroed with wp := 7, cbp := 9 })
    (fun t => t.wp == 0 && t.eR == 4078 && t.eLen == 0 && t.cbp == 1 && t.mask == 1 && t.eState == .seedFill) = true := by
  decide +kernel
/-- R112, the example `41 42 43`. -/
theorem test_eSeedFill : ends (exec .eSeedFill (fed [0x41, 0x42, 0x43]))
    (fun t => t.text.cells == [(4078, 0x41), (4079, 0x42), (4080, 0x43)] && t.eLen == 3 && t.ip == 3 &&
      t.eState == .seedIndex) = true := by decide +kernel
/-- R112: empty input. -/
theorem test_eSeedFill_empty : ends (exec .eSeedFill zeroed) (fun t => t.eState == .endRun) = true := by decide +kernel
/-- R113, vector I12: `IN` = `41 42 43`. -/
theorem test_eSeedIndex : ends (exec .eSeedIndex (window [(4078, 0x41), (4079, 0x42), (4080, 0x43)]))
    (fun t => t.rson.cells == [(4096, 4077), (4161, 4078)] && t.lson.read 4077 == 4076 && t.dad.read 4061 == 4062 &&
      t.matchPos == 4062 && t.matchLen == 0 && t.eState == .select) = true := by decide +kernel
/-- R115, its example. -/
theorem test_eSelect_literal : ends (exec .eSelect { window [(4078, 0x41)] with
      eR := 4078, eLen := 4, matchLen := 2, mask := 1, cbp := 1 })
    (fun t => t.cb.cells == [(0, 1), (1, 0x41)] && t.cbp == 2 && t.matchLen == 1) = true := by decide +kernel
/-- R116, its example: position 4078, length 9 is `EE F6`; R114: the length is clamped to `E_LEN`. -/
theorem test_eSelect_match : ends (exec .eSelect { zeroed with matchPos := 4078, matchLen := 18, eLen := 9, cbp := 4 })
    (fun t => t.cb.cells == [(4, 0xEE), (5, 0xF6)] && t.cbp == 6 && t.matchLen == 9 && t.eState == .block) = true := by
  decide +kernel
/-- R117, its example: the eighth literal. -/
theorem test_eBlock_flush : ends (exec .eBlock { zeroed with
      mask := 0x80, cbp := 9
      cb := writeBytes (Arr.all 0) 0 [0xFF, 0x61, 0x62, 0x63, 0x64, 0x65, 0x66, 0x67, 0x68] })
    (fun t => output t == [0xFF, 0x61, 0x62, 0x63, 0x64, 0x65, 0x66, 0x67, 0x68] && t.cb.read 0 == 0 && t.cbp == 1 &&
      t.mask == 1) = true := by decide +kernel
/-- R171: a block that does not fit in `OUT` takes `F_LEN`. -/
theorem test_eBlock_full : ends (exec .eBlock { zeroed with mask := 0x80, cbp := 1, outLen := 0xFFFFFFFF })
    (fun t => t.top == .fault && t.fcode == some .len) = true := by decide +kernel
/-- R118, corner case: `WP` = 16 writes the mirror; `E_R` = 4094 goes on to 4095. -/
theorem test_eAdvance : ends (exec .eAdvance { fed [0x41, 0x42] with wp := 16, eR := 4094, eLen := 18, matchLen := 1 })
    (fun t => t.text.cells == [(16, 0x41), (4112, 0x41)] && t.wp == 17 && t.eR == 4095 && t.ip == 1 && t.eI == 1 &&
      t.dad.read 4095 == 4096 && t.eState == .drain) = true := by decide +kernel
/-- R119: the last step deletes and advances but skips the insertion. -/
theorem test_eDrain_last : ends (exec .eDrain { zeroed with wp := 0, eR := 4078, eLen := 1, eLast := 1 })
    (fun t => t.wp == 1 && t.eR == 4079 && t.eLen == 0 && t.dad.cells == [] && t.eState == .final) = true := by
  decide +kernel
/-- R119: an earlier exhausted step inserts the new position (trace of V6, first `E_DRAIN`). -/
theorem test_eDrain_inserts : ends (exec .eDrain { linked
      (window [(4078, 0x41), (4079, 0x41), (4080, 0x41), (4081, 0x41)]) [] [(4161, 4078)] [(4078, 4161)] with
      wp := 0, eR := 4078, eLen := 4, eLast := 1 })
    (fun t => t.eLen == 3 && t.matchPos == 4078 && t.matchLen == 3 && t.lson.read 4078 == 4079 && t.eState == .select) =
      true := by decide +kernel
/-- R121, its example: three literals. -/
theorem test_eFinal : ends (exec .eFinal { zeroed with cbp := 4, cb := writeBytes (Arr.all 0) 0 [0x07, 0x41, 0x42, 0x43] })
    (fun t => output t == [0x07, 0x41, 0x42, 0x43] && t.eState == .endRun) = true := by decide +kernel
/-- R112: empty input, empty stream (V1). -/
theorem test_encRun_empty : ends (exec .encRun zeroed) (fun t => t.outLen == 0 && t.eState == .endRun) = true := by
  decide +kernel
/-- V2. -/
theorem test_encRun_one : ends (exec .encRun (fed [0x41])) (fun t => output t == [0x01, 0x41]) = true := by decide +kernel

/-! ### Decoder -/

/-- R131. -/
theorem test_dInit : ends (exec .dInit (window [(3, 9)]))
    (fun t => t.text.cells == [] && t.wp == 4078 && t.dflags == 0 && t.dState == .check) = true := by decide +kernel
/-- R139: the bound is `OUT_LEN >= MAX_OUT`, in the bounded command alone. -/
theorem test_dCheck : ends (exec .dCheck { zeroed with cmd := 3 }) (fun t => t.dState == .stop && t.stop == .maxReached) = true ∧
    ends (exec .dCheck { zeroed with cmd := 4 }) (fun t => t.dState == .flag) = true := by decide +kernel
/-- R133 and the worked example R142: the first load. -/
theorem test_dFlag_load : ends (exec .dFlag (fed [0x01, 0x41]))
    (fun t => t.dflags == 0xFF01 && t.ip == 1 && t.dState == .lit) = true := by decide +kernel
/-- R142: token 1, no reload. -/
theorem test_dFlag_shift : ends (exec .dFlag { fed [0x01, 0x41] with dflags := 0xFF01, ip := 2 })
    (fun t => t.dflags == 0x7F80 && t.ip == 2 && t.dState == .matchTok) = true := by decide +kernel
/-- R134, its example. -/
theorem test_dLit : ends (exec .dLit { fed [0x41] with wp := 4078 })
    (fun t => output t == [0x41] && t.text.cells == [(4078, 0x41)] && t.wp == 4079) = true := by decide +kernel
/-- R135, its example. -/
theorem test_dMatch : ends (exec .dMatch (fed [0xEE, 0xF6])) (fun t => t.dK == 4078 && t.dEnd == 4086 && t.ip == 2) = true := by
  decide +kernel
/-- R135, T4: exactly one byte left, which is not consumed. -/
theorem test_dMatch_truncated : ends (exec .dMatch (fed [0xEE])) (fun t => t.stop == .trunc && t.ip == 0) = true := by
  decide +kernel
/-- R136, its example. -/
theorem test_dCopy_overlap : ends (exec .dCopy { window [(4078, 0x41)] with wp := 4079, dK := 4078, dEnd := 4080 })
    (fun t => output t == [0x41, 0x41, 0x41] && t.wp == 4082 && t.dState == .check) = true := by decide +kernel
/-- T19: the source wraps from position 4095 to 0. -/
theorem test_dCopy_wraps : ends (exec .dCopy { window [(0, 7), (4095, 6), (4096, 7)] with wp := 100, dK := 4095, dEnd := 4097 })
    (fun t => output t == [6, 7, 0]) = true := by decide +kernel
/-- R133, R134, R135: the items. -/
theorem test_items : ends (exec (.ctrl 0x06) zeroed) (fun t => t.dflags == 0xFF06 && t.dState == .matchTok && t.ip == 1) = true ∧
    ends (exec (.lit 0x41) { zeroed with wp := 4078 }) (fun t => output t == [0x41] && t.ip == 1 && t.wp == 4079) = true ∧
    ends (exec (.matchTok 4078 6) zeroed) (fun t => t.dK == 4078 && t.dEnd == 4086 && t.dB1 == 0xF6) = true := by
  decide +kernel
/-- T6, R142. -/
theorem test_decRun : ends (exec (.decRun false) (fed [0x01, 0x41, 0xEE, 0xF0]))
    (fun t => output t == [0x41, 0x41, 0x41, 0x41] && t.wp == 4082 && t.ip == 4 && t.stop == .inEnd) = true := by
  decide +kernel
/-- T9. -/
theorem test_decRun_bounded : ends (exec (.decRun true) { fed [0x01, 0x41, 0xEE, 0xF0] with maxOut := 2 })
    (fun t => output t == [0x41, 0x41] && t.wp == 4080 && t.ip == 4 && t.stop == .maxReached) = true := by decide +kernel

/-! ### Commands -/

/-- G2, G3. -/
theorem test_guard : ends (exec .guard { zeroed with inLen := 1, maxOut := 1990 }) (fun t => t.ret == .trips false) = true ∧
    ends (exec .guard { zeroed with inLen := 1, maxOut := 1991 }) (fun t => t.ret == .trips true) = true := by decide +kernel
/-- The 32-bit extreme of the guard (section 5.2): no wrap-around. -/
theorem test_guard_no_wrap :
    ends (exec .guard { zeroed with inLen := 2147483, maxOut := 0xFFFFFFFF }) (fun t => t.ret == .trips true) = true ∧
    ends (exec .guard { zeroed with inLen := 2147484, maxOut := 0xFFFFFFFF }) (fun t => t.ret == .trips false) = true := by
  decide +kernel
/-- H6, H10. -/
theorem test_hdrCheck : ends (exec .hdrCheck (fed [4, 0, 0, 0, 7, 0x41, 0x42, 0x43]))
      (fun t => t.ret == .header true && t.ip == 4) = true ∧
    ends (exec .hdrCheck (fed [0, 0, 0, 1, 7, 0x41, 0x42, 0x43])) (fun t => t.ret == .header false) = true := by
  decide +kernel
/-- H4, H5: the header read as an item. -/
theorem test_hdr : ends (exec (.hdr 0) (fed [0, 0, 0, 0])) (fun t => t.ret == .header true && t.ip == 4) = true ∧
    ends (exec (.hdr 1) (fed [1, 0, 0, 0])) (fun t => t.ret == .header false) = true := by decide +kernel
/-- V15: `00 00 00` compresses to `00 DD F0`. -/
theorem test_cmdCompress : ends (exec .cmdCompress (fed [0, 0, 0])) (fun t => output t == [0x00, 0xDD, 0xF0]) = true := by
  decide +kernel
/-- H11. -/
theorem test_cmdCompressHdr : ends (exec .cmdCompressHdr zeroed)
    (fun t => output t == [0, 0, 0, 0] && t.stop == .complete) = true := by decide +kernel
/-- PR4, G7. -/
theorem test_cmdDecompress : ends (exec .cmdDecompress { fed [0x07, 0x41, 0x42, 0x43, 0xEE, 0xF6] with maxOut := 7 })
      (fun t => output t == [0x41, 0x42, 0x43, 0x41, 0x42, 0x43, 0x41] && t.stop == .maxReached && t.dK == 4082) = true ∧
    ends (exec .cmdDecompress { fed [1, 0x41, 0xEE, 0xF0] with maxOut := 7991 })
      (fun t => t.outLen == 0 && t.stop == .guard) = true := by decide +kernel
/-- T17. -/
theorem test_cmdDecompressAll : ends (exec .cmdDecompressAll (fed [0x02, 0x00, 0x00, 0x58]))
    (fun t => output t == [0, 0, 0, 0x58] && t.wp == 4082) = true := by decide +kernel
/-- H6, H7. -/
theorem test_cmdDecompressAllHdr : ends (exec .cmdDecompressAllHdr (fed [4, 0, 0, 0, 7, 0x41, 0x42, 0x43]))
      (fun t => output t == [0x41, 0x42, 0x43] && t.ip == 8 && t.stop == .inEnd) = true ∧
    ends (exec .cmdDecompressAllHdr (fed [5, 0, 0, 0, 7, 0x41, 0x42, 0x43]))
      (fun t => t.outLen == 0 && t.stop == .badHeader) = true := by decide +kernel
/-- K4. -/
theorem test_start_compress : ends (exec .start { fed [0x41] with cmd := 1 })
    (fun t => t.top == .done && t.stop == .complete && output t == [0x01, 0x41]) = true := by decide +kernel
/-- R110, R130: the end states hand back to the command. -/
theorem test_end_states : ends (exec .eEnd { zeroed with top := .busy, cmd := 2, outLen := 8 })
      (fun t => t.top == .done && t.outByte 0 == 4) = true ∧
    ends (exec .dStop { zeroed with top := .busy, cmd := 3, stop := .trunc }) (fun t => t.top == .done && t.stop == .trunc) =
      true := by decide +kernel

/-! ### Witnesses: concrete states that meet the hypotheses of the statements -/

/-- Two linked nodes of bucket 0: node 10 at the top, node 5 its left child. The key of 10 is 17 zero bytes and 5, that of
5 is 18 zero bytes; position 100 has the key of 10. -/
def pair : State := linked (window [(27, 5), (117, 5)]) [(10, 5)] [(4096, 10)] [(5, 10), (10, 4096)]

/-- The links of empty trees meet the index invariant. -/
theorem indexInv_empty {s : State} (hl : s.lson = Arr.all Config.nil) (hr : s.rson = Arr.all Config.nil)
    (hd : s.dad = Arr.all Config.nil) : s.IndexInv where
  parent p _ h := by rw [hd] at h; exact absurd rfl h
  child d _ l hk := by
    left
    rcases hk with rfl | rfl
    · show s.lson.read d = _; rw [hl]; rfl
    · show s.rson.read d = _; rw [hr]; rfl
  roots c _ := by rw [hl, hd]; exact ⟨rfl, rfl⟩
  acyclic := ⟨fun _ => 0, fun p _ h => by rw [hd] at h; exact absurd rfl h⟩

theorem pair_lson (i : Nat) : pair.lson.read i = if i = 10 then 5 else Config.nil := by
  simp [pair, linked, Arr.read, lookupCell, Fill.read]

theorem pair_rson (i : Nat) : pair.rson.read i = if i = 4096 then 10 else Config.nil := by
  simp [pair, linked, Arr.read, lookupCell, Fill.read]

theorem pair_dad (i : Nat) : pair.dad.read i = if i = 5 then 10 else if i = 10 then 4096 else Config.nil := by
  simp [pair, linked, Arr.read, lookupCell, Fill.read]

theorem pair_indexInv : pair.IndexInv where
  parent p hp h := by
    rw [pair_dad] at h ⊢
    unfold State.inTree
    split_ifs at h ⊢ with h1 h2
    · subst h1; exact ⟨.inr (by decide), .inl (by decide)⟩
    · subst h2; exact ⟨.inl (by decide), .inr (by decide)⟩
    · exact absurd rfl h
  child d hd l hl := by
    rcases hl with rfl | rfl
    · by_cases h : d = 10
      · subst h; right; decide
      · left; rw [State.link, pair_lson, if_neg h]
    · by_cases h : d = 4096
      · subst h; right; decide
      · left; rw [State.link, pair_rson, if_neg h]
  roots c hc := by
    rw [pair_lson, pair_dad, if_neg (by simp [Config.windowSize]; omega), if_neg (by simp [Config.windowSize]; omega),
      if_neg (by simp [Config.windowSize]; omega)]
    exact ⟨rfl, rfl⟩
  acyclic := ⟨fun p => if p = 5 then 2 else if p = 10 then 1 else 0, fun p hp h => by
    rw [pair_dad] at h ⊢
    split_ifs at h ⊢ with h1 h2
    · simp [h1]
    · simp [h2]
    · exact absurd rfl h⟩

/-- Something lies below a node only where a linked node names it as its parent. -/
theorem below_parent {s : State} {d p : Nat} (h : s.Below d p) : ∃ c, s.dad.read c ≠ Config.nil ∧ (s.dad.read c).toNat = d := by
  induction h with
  | child _ h => exact ⟨_, h, rfl⟩
  | up _ _ _ ih => exact ih

/-- Empty trees are search trees. -/
theorem searchTrees_empty {s : State} (hd : s.dad = Arr.all Config.nil) : s.SearchTrees where
  bucket _ _ h := by rw [hd] at h; exact absurd rfl h
  left _ _ _ h := by rw [hd] at h; exact absurd rfl h
  right _ _ _ h := by rw [hd] at h; exact absurd rfl h

theorem pair_below_ten : pair.Below 4096 10 := .child (s := pair) (p := 10) (by decide) (by decide +kernel)

theorem pair_searchTrees : pair.SearchTrees where
  bucket p _ h := by
    rw [pair_dad] at h
    split_ifs at h with h1 h2
    · subst h1; exact .up (by decide) (by decide +kernel) pair_below_ten
    · subst h2; exact pair_below_ten
    · exact absurd rfl h
  left d p _ _ h := by
    obtain ⟨hn, hp⟩ := h
    rw [pair_lson] at hn hp
    split_ifs at hn hp with h1
    · subst h1
      obtain rfl | hb := hp
      · have hk : (∀ i : Fin 17, pair.text.read (5 + i.val) = pair.text.read (10 + i.val)) ∧
            pair.text.read (5 + 17) < pair.text.read (10 + 17) := by decide +kernel
        exact ⟨17, by decide, fun i hi => hk.1 ⟨i, hi⟩, hk.2⟩
      · obtain ⟨c, hc, he⟩ := below_parent hb
        rw [pair_dad] at hc he
        split_ifs at hc he <;> simp_all
    · exact absurd rfl hn
  right d p hd _ h := by
    obtain ⟨hn, -⟩ := h
    rw [pair_rson, if_neg (by rintro rfl; exact absurd hd (by decide))] at hn
    exact absurd rfl hn

/-- The tree of R106, example 1: node 10 with children 5 and 20, node 5 with children 2 and 8. -/
def r106 : State :=
  linked zeroed [(5, 2), (10, 5)] [(5, 8), (10, 20), (4161, 10)] [(2, 5), (5, 10), (8, 5), (10, 4161), (20, 10)]

theorem r106_lson (i : Nat) : r106.lson.read i = if i = 5 then 2 else if i = 10 then 5 else Config.nil := by
  simp [r106, linked, Arr.read, lookupCell, Fill.read]

theorem r106_rson (i : Nat) :
    r106.rson.read i = if i = 5 then 8 else if i = 10 then 20 else if i = 4161 then 10 else Config.nil := by
  simp [r106, linked, Arr.read, lookupCell, Fill.read]

theorem r106_dad (i : Nat) : r106.dad.read i = if i = 2 then 5 else if i = 5 then 10 else if i = 8 then 5 else
    if i = 10 then 4161 else if i = 20 then 10 else Config.nil := by
  simp [r106, linked, Arr.read, lookupCell, Fill.read]

theorem r106_indexInv : r106.IndexInv where
  parent p hp h := by
    rw [r106_dad] at h
    split_ifs at h with h1 h2 h3 h4 h5
    · subst h1; exact ⟨.inr (by decide +kernel), .inl (by decide +kernel)⟩
    · subst h2; exact ⟨.inr (by decide +kernel), .inl (by decide +kernel)⟩
    · subst h3; exact ⟨.inr (by decide +kernel), .inr (by decide +kernel)⟩
    · subst h4; exact ⟨.inl (by decide +kernel), .inr (by decide +kernel)⟩
    · subst h5; exact ⟨.inr (by decide +kernel), .inr (by decide +kernel)⟩
    · exact absurd rfl h
  child d hd l hl := by
    rcases hl with rfl | rfl
    · by_cases h : d = 5 ∨ d = 10
      · rcases h with rfl | rfl <;> (right; decide +kernel)
      · left; rw [State.link, r106_lson, if_neg (by omega), if_neg (by omega)]
    · by_cases h : d = 5 ∨ d = 10 ∨ d = 4161
      · rcases h with rfl | rfl | rfl <;> (right; decide +kernel)
      · left; rw [State.link, r106_rson, if_neg (by omega), if_neg (by omega), if_neg (by omega)]
  roots c hc := by
    have h : ∀ n, n < 21 → Config.windowSize + c ≠ n := fun n hn => by simp [Config.windowSize]; omega
    rw [r106_lson, r106_dad]
    exact ⟨by rw [if_neg (h 5 (by decide)), if_neg (h 10 (by decide))], by
      rw [if_neg (h 2 (by decide)), if_neg (h 5 (by decide)), if_neg (h 8 (by decide)), if_neg (h 10 (by decide)),
        if_neg (h 20 (by decide))]⟩
  acyclic := ⟨fun p => if p = 2 ∨ p = 8 then 3 else if p = 5 ∨ p = 20 then 2 else if p = 10 then 1 else 0, fun p hp h => by
    rw [r106_dad] at h ⊢
    split_ifs at h ⊢ with h1 h2 h3 h4 h5 <;> first | exact absurd rfl h | simp_all⟩

/-- The main loop with empty trees, all 18 lookahead bytes valid, input left. -/
def looping : State :=
  { fed [1, 2, 3] with wp := 18, eR := 0, eLen := 18, matchLen := 18, eLast := 18, eI := 0 }

theorem looping_encInv : looping.EncInv where
  index := indexInv_empty rfl rfl rfl
  cursors := rfl
  unlinked _ _ _ := rfl
  lookahead := by decide
  input := by decide

theorem witness_DecodeOfEncode : (Instr.matchTok 4095 15).wf = true ∧
    encode (.matchTok 4095 15) = some (.matchTok, [0xFF, 0xFF]) := by decide

theorem witness_EncodeOfDecode : decode .matchTok [0xFF, 0xFF, 7] = .ok (.matchTok 4095 15, [7]) ∧
    Place.matchTok ≠ .cmd ∧ decode .matchTok [0xFF] = .error .truncated ∧ decode .hdr [1, 2, 3] = .error .truncated ∧
    decode .lit [] = .error .truncated := by decide

/-- A state in `FAULT` with the host's next move given. -/
def faulted (h : List HostAct) : State := { zeroed with top := .fault, fcode := some .len, host := h }

theorem witness_FaultIsSticky : (faulted []).top = .fault ∧
    ((faulted [.start]).top = .fault ∧ (∀ rest, (faulted [.start]).host ≠ .reset :: rest) ∧
      ∃ t, step (faulted [.start]) = .next t) ∧ (faulted [.reset]).host = .reset :: [] := by
  refine ⟨rfl, ⟨rfl, fun rest h => ?_, ⟨_, rfl⟩⟩, rfl⟩
  simp [faulted] at h

/-- Right links that lead from node 10 back to itself: the walk to the deep predecessor never ends. -/
theorem witness_OnlyIndexWalksCanHang :
    exec (.idxDelete 20) (linked zeroed [(20, 9)] [(9, 10), (10, 10), (20, 3)] [(20, 4096)]) = .fault .diverges := by
  have h : (match exec (.idxDelete 20) (linked zeroed [(20, 9)] [(9, 10), (10, 10), (20, 3)] [(20, 4096)]) with
      | .fault .diverges => true | _ => false) = true := by decide +kernel
  revert h
  cases exec (.idxDelete 20) (linked zeroed [(20, 9)] [(9, 10), (10, 10), (20, 3)] [(20, 4096)]) with
  | fault f => cases f <;> simp
  | next t => simp
  | refused r => simp

/-- A `BUSY` decoder about to load a control byte. -/
def running : State := { fed [0x01, 0x41] with top := .busy, cmd := 4, dState := .flag }

theorem running_steps : ∃ t, step running = .next t :=
  (ends_next (check := fun _ => true) (by decide +kernel)).imp fun _ h => h.1

theorem witness_StepKeepsMemoryForm : running.memWf = true ∧ ∃ t, step running = .next t :=
  ⟨by decide +kernel, running_steps⟩

theorem witness_StepKeepsFaultCode : running.faultCodeOk ∧ ∃ t, step running = .next t :=
  ⟨by unfold State.faultCodeOk; decide, running_steps⟩

theorem witness_StepKeepsCursorInRange : running.cursorOk ∧ running.top = .busy ∧ ∃ t, step running = .next t :=
  ⟨by unfold State.cursorOk; decide, rfl, running_steps⟩

theorem witness_MirrorCoherenceKept : Instr.winWrite 16 7 ≠ .reset ∧ zeroed.mirrorOk ∧
    ∃ t, exec (.winWrite 16 7) zeroed = .next t :=
  ⟨by decide, fun _ _ => rfl, (ends_next (check := fun _ => true) (by decide +kernel)).imp fun _ h => h.1⟩

theorem witness_WinWriteSetsPositionAndMirror : 4095 ≤ 4095 ∧ 4095 < 4096 := by decide

theorem witness_WinReadsAnswerThroughMirror : 4095 + 17 ≤ 4112 ∧ 4112 < 4096 + 17 ∧
    (4095 ≤ 4095 ∧ 17 ≤ 17 ∧ zeroed.mirrorOk) := ⟨by decide, by decide, by decide, by decide, fun _ _ => rfl⟩

theorem witness_IdxInsertIntoEmptyBucket : 4095 ≤ 4095 ∧
    zeroed.rson.read (4096 + (zeroed.text.read 4095).toNat) = Config.nil := ⟨by decide, rfl⟩

theorem witness_IdxInsertCompletesAndKeepsIndex : 4095 ≤ 4095 ∧ pair.IndexInv ∧ pair.dad.read 4095 = Config.nil ∧
    (5 ≤ 4095 ∧ pair.dad.read 5 ≠ Config.nil) ∧ pair.SearchTrees ∧
    ∃ t, exec (.idxInsert 4095) pair = .next t ∧ t.matchLen ≠ 0 := by
  refine ⟨by decide, pair_indexInv, by decide +kernel, by decide +kernel, pair_searchTrees, ?_⟩
  obtain ⟨t, h, hc⟩ := ends_next (o := exec (.idxInsert 4095) pair) (check := fun t => t.matchLen != 0) (by decide +kernel)
  exact ⟨t, h, by simpa using hc⟩

theorem witness_IdxInsertReportsCommonPrefix :
    ∃ t, exec (.idxInsert 200) pair = .next t ∧ (t.top ≠ .fault ∧ t.matchLen = 18) := by
  obtain ⟨t, h, hc⟩ := ends_next (o := exec (.idxInsert 200) pair)
    (check := fun t => t.top != .fault && t.matchLen == 18) (by decide +kernel)
  exact ⟨t, h, by simpa using hc⟩

theorem witness_IdxInsertReplacesEqualKey : 100 ≤ 4095 ∧ pair.IndexInv ∧ pair.dad.read 100 = Config.nil ∧ 10 ≤ 4095 ∧
    (pair.rson.read (4096 + (pair.text.read 100).toNat)).toNat = 10 ∧
    (∀ j, 1 ≤ j → j ≤ 17 → pair.text.read (100 + j) = pair.text.read (10 + j)) ∧ pair.lson.read 10 ≠ Config.nil := by
  refine ⟨by decide, pair_indexInv, by decide +kernel, by decide, by decide +kernel, fun j h1 h2 => ?_, by decide +kernel⟩
  have h : ∀ k : Fin 18, pair.text.read (100 + k.val) = pair.text.read (10 + k.val) := by decide +kernel
  exact h ⟨j, by omega⟩

theorem witness_IdxSearchIsInsert : 4095 ≤ 4095 ∧ pair.IndexInv ∧ pair.dad.read 4095 = Config.nil :=
  ⟨by decide, pair_indexInv, by decide +kernel⟩

theorem witness_IdxDeleteRewiresAroundTheNode : (4351 ≤ 4351 ∧ pair.dad.read 4351 = Config.nil) ∧
    (10 ≤ 4095 ∧ pair.IndexInv ∧ pair.dad.read 10 ≠ Config.nil ∧
      (pair.rson.read 10 = Config.nil ∧ (5#13 : Node) = pair.lson.read 10)) ∧
    (5 ≤ 4095 ∧ pair.dad.read 5 ≠ Config.nil ∧ (pair.lson.read 5 = Config.nil ∧ Config.nil = pair.rson.read 5)) ∧
    (10 ≤ 4095 ∧ r106.IndexInv ∧ r106.dad.read 10 ≠ Config.nil ∧ r106.lson.read 10 ≠ Config.nil ∧
      r106.rson.read 10 ≠ Config.nil ∧ r106.RightFrom (r106.lson.read 10).toNat 8 ∧ r106.rson.read 8 = Config.nil ∧
      8 ≠ (r106.lson.read 10).toNat) ∧
    (5 ≤ 4095 ∧ r106.dad.read 5 ≠ Config.nil ∧ r106.lson.read 5 ≠ Config.nil ∧ r106.rson.read 5 ≠ Config.nil ∧
      r106.RightFrom (r106.lson.read 5).toNat 2 ∧ r106.rson.read 2 = Config.nil ∧ 2 = (r106.lson.read 5).toNat) :=
  ⟨by decide +kernel, ⟨by decide, pair_indexInv, by decide +kernel, by decide +kernel⟩, by decide +kernel,
    ⟨by decide, r106_indexInv, by decide +kernel, by decide +kernel, by decide +kernel,
      .further .here (by decide +kernel), by decide +kernel, by decide +kernel⟩,
    ⟨by decide, by decide +kernel, by decide +kernel, by decide +kernel, .here, by decide +kernel, by decide +kernel⟩⟩

theorem witness_IdxDeleteCompletesAndKeepsIndex : 4095 ≤ 4095 ∧ pair.IndexInv ∧ pair.dad.read 10 ≠ Config.nil ∧
    pair.SearchTrees := ⟨by decide, pair_indexInv, by decide +kernel, pair_searchTrees⟩

theorem witness_ESeedFillCopiesInput :
    ((fed (List.replicate 20 7)).eLen = 0 ∧ (fed (List.replicate 20 7)).ip ≤ (fed (List.replicate 20 7)).inLim ∧
      (fed (List.replicate 20 7)).inLim ≤ (fed (List.replicate 20 7)).inLen ∧
      18 = min 18 (fed (List.replicate 20 7)).inputLeft) ∧
    (zeroed.eLen = 0 ∧ zeroed.ip ≤ zeroed.inLim ∧ zeroed.inLim ≤ zeroed.inLen ∧ 0 = min 18 zeroed.inputLeft) := by
  decide +kernel

theorem witness_ESeedIndexInsertsSeedPositions : pair.IndexInv ∧
    (∀ p, 4061 ≤ p → p ≤ 4078 → pair.dad.read p = Config.nil) ∧ pair.SearchTrees :=
  ⟨pair_indexInv, fun p h _ => by rw [pair_dad, if_neg (by omega), if_neg (by omega)], pair_searchTrees⟩

theorem witness_ESelectLiteralBranch :
    min ({ zeroed with matchLen := 18, eLen := 2, cbp := 16 } : State).matchLen.toNat 2 ≤ 2 ∧ 1 ≤ (16#5).toNat ∧
      (16#5).toNat ≤ 16 := by decide

theorem witness_ESelectMatchBranch : 18 = min (18#5).toNat (18#5).toNat ∧ 3 ≤ 18 ∧ 18 ≤ 18 ∧ 1 ≤ (15#5).toNat ∧
    (15#5).toNat ≤ 15 ∧ 3 = min (18#5).toNat (3#5).toNat := by decide

theorem witness_ESelectFullBufferFaults :
    (min (2#5).toNat (18#5).toNat ≤ 2 ∧ 16 < (17#5).toNat) ∧ (3 ≤ min (3#5).toNat (18#5).toNat ∧ 15 < (16#5).toNat) := by
  decide

theorem witness_BlocksAreFlushed : (0x40 : Byte) <<< 1 ≠ 0 ∧
    ((0x80 : Byte) <<< 1 = 0 ∧ (17#5).toNat ≤ 17 ∧ (0xFFFFFFEE#32).toNat + (17#5).toNat < 2 ^ 32) ∧ (1#5).toNat ≤ 1 ∧
    (1 < (2#5).toNat ∧ (2#5).toNat ≤ 17 ∧ (0#32).toNat + (2#5).toNat < 2 ^ 32) := by decide

theorem witness_EAdvanceMovesWithInput : looping.EncInv ∧ looping.matchLen ≤ looping.eLen ∧
    3 = min looping.matchLen.toNat looping.inputLeft ∧ looping.SearchTrees :=
  ⟨looping_encInv, by decide +kernel, by decide +kernel, searchTrees_empty rfl⟩

theorem witness_EDrainShrinksLookahead : looping.EncInv ∧ looping.eI ≤ looping.eLast ∧
    18 = looping.eLast.toNat - looping.eI.toNat ∧ 18 ≤ looping.eLen.toNat ∧
    looping.SearchTrees := ⟨looping_encInv, by decide +kernel, by decide +kernel, by decide +kernel, searchTrees_empty rfl⟩

theorem witness_EncRunOnEmptyInput : zeroed.inLim ≤ zeroed.ip := by decide

theorem witness_EncRunCompletesWithinBound : (fed [1, 2, 3]).ip ≤ (fed [1, 2, 3]).inLim ∧
    (fed [1, 2, 3]).inLim ≤ (fed [1, 2, 3]).inLen ∧ 3 = (fed [1, 2, 3]).inputLeft ∧
    (fed [1, 2, 3]).outLen.toNat + 3 + (3 + 7) / 8 < 2 ^ 32 := by decide +kernel

/-- A `BUSY` engine with a command code and a result length. -/
def busyWith (c : BitVec 3) (n : Len) : State := { zeroed with top := .busy, cmd := c, outLen := n }

theorem witness_EndStatesCompleteTheCommand : ((busyWith 1 0).top = .busy ∧ (busyWith 1 0).cmd = 1) ∧
    ((busyWith 2 4).top = .busy ∧ (busyWith 2 4).cmd = 2 ∧ 4 ≤ (busyWith 2 4).outLen.toNat) ∧
    (zeroed.top ≠ .busy ∧ ((busyWith 3 0).cmd ≠ 1 ∧ (busyWith 3 0).cmd ≠ 2)) ∧
    ((busyWith 5 0).top = .busy ∧ (busyWith 5 0).cmd = 5) ∧
    ((busyWith 2 0).cmd ≠ 3 ∧ (busyWith 2 0).cmd ≠ 4 ∧ (busyWith 2 0).cmd ≠ 5) := by decide +kernel

theorem witness_DCheckTestsTheBound : ((busyWith 3 0).cmd = 3 ∧ (busyWith 3 0).maxOut ≤ (busyWith 3 0).outLen) ∧
    (busyWith 4 0).cmd ≠ 3 ∧ ({ busyWith 3 0 with maxOut := 1 } : State).outLen < 1 := by decide +kernel

theorem witness_DFlagShiftsOrReloads : ((0xFF01#16) >>> 1).getLsbD 8 = true ∧
    (((0x01FF#16) >>> 1).getLsbD 8 = false ∧ (fed [9]).ip < (fed [9]).inLim ∧ (fed [9]).inLim ≤ (fed [9]).inLen) ∧
    zeroed.inLim ≤ zeroed.ip := by decide +kernel

theorem witness_DLitEmitsAndStores : ((fed [9]).ip < (fed [9]).inLim ∧ (fed [9]).inLim ≤ (fed [9]).inLen ∧
      9 = (fed [9]).inputByte (fed [9]).ip.toNat ∧ (0xFFFFFFFE#32).toNat < 2 ^ 32 - 1) ∧
    zeroed.inLim ≤ zeroed.ip ∧ (0xFFFFFFFF#32).toNat = 2 ^ 32 - 1 := by decide +kernel

theorem witness_DMatchAssemblesOrStops : ((fed [0xFF, 0xFF]).ip.toNat + 1 < (fed [0xFF, 0xFF]).inLim.toNat ∧
      (fed [0xFF, 0xFF]).inLim ≤ (fed [0xFF, 0xFF]).inLen ∧ 0xFF = (fed [0xFF, 0xFF]).inputByte 0 ∧
      0xFF = (fed [0xFF, 0xFF]).inputByte 1) ∧ zeroed.inLim ≤ zeroed.ip ∧
    (fed [9]).inLim.toNat = (fed [9]).ip.toNat + 1 := by decide +kernel

/-- A copy of 18 bytes from the last position, across the end of the window, that overlaps the write cursor; unbounded and
bounded. -/
def copying (c : BitVec 3) : State := { zeroed with cmd := c, maxOut := 5, dK := 4095, dEnd := 4112, wp := 0 }

theorem witness_DCopyReplaysHistory : (copying 4).dEnd.toNat ≤ 4112 ∧
    (copying 4).dEnd.toNat + 1 - (copying 4).dK.toNat ≤ 18 ∧
    18 = (if (copying 4).cmd = 3 then min ((copying 4).dEnd.toNat + 1 - (copying 4).dK.toNat)
      ((copying 4).maxOut.toNat - (copying 4).outLen.toNat) else (copying 4).dEnd.toNat + 1 - (copying 4).dK.toNat) ∧
    1 = ((copying 4).wp.toNat + 8192 - (copying 4).dK.toNat) % 4096 ∧ (copying 4).outLen.toNat + 18 < 2 ^ 32 ∧
    5 = (if (copying 3).cmd = 3 then min ((copying 3).dEnd.toNat + 1 - (copying 3).dK.toNat)
      ((copying 3).maxOut.toNat - (copying 3).outLen.toNat) else (copying 3).dEnd.toNat + 1 - (copying 3).dK.toNat) := by
  decide +kernel

theorem witness_WireItemsHaveTheirEffect : (0xFFFFFFFE#32).toNat < 2 ^ 32 - 1 := by decide

theorem witness_DecRunCompletesWithinBound : (fed [0x01, 0x41]).ip ≤ (fed [0x01, 0x41]).inLim ∧
    (fed [0x01, 0x41]).inLim ≤ (fed [0x01, 0x41]).inLen ∧
    (false = false → (fed [0x01, 0x41]).outLen.toNat + 9 * (fed [0x01, 0x41]).inputLeft < 2 ^ 32) ∧ true ≠ false := by
  decide +kernel

/-- A stream of four bytes with the bound 2 inside its MATCH. -/
def bounded2 : State := { fed [0x01, 0x41, 0xEE, 0xF0] with maxOut := 2 }

theorem witness_BoundedDecodeIsPrefix : bounded2.outLen = 0 ∧
    (∃ t, exec (.decRun false) bounded2 = .next t ∧ t.top ≠ .fault) ∧
    (∃ t, exec (.decRun true) bounded2 = .next t ∧ t.top ≠ .fault) := by
  obtain ⟨t, h, hc⟩ := ends_next (o := exec (.decRun false) bounded2) (check := fun t => t.top != .fault) (by decide +kernel)
  obtain ⟨u, k, kc⟩ := ends_next (o := exec (.decRun true) bounded2) (check := fun t => t.top != .fault) (by decide +kernel)
  exact ⟨rfl, ⟨t, h, by simpa using hc⟩, ⟨u, k, by simpa using kc⟩⟩

theorem witness_ReservedCommandsFault : zeroed.top = .idle ∧ zeroed.cmd = 0 ∧ (busyWith 6 0).cmd = 6 ∧
    ({ busyWith 7 0 with top := .done } : State).top = .done ∧ (busyWith 7 0).cmd = 7 := by decide +kernel

/-- An `IDLE` engine with a command and its input in place. -/
def placed (c : BitVec 3) (m : Len) (bytes : List Byte) : State := { fed bytes with cmd := c, maxOut := m, inLim := 0 }

theorem witness_StartRunsTheDecodedCommand : (busyWith 1 0).top = .busy ∧ (faulted []).top = .fault ∧
    ((placed 4 0 [1, 0x41]).top = .idle ∧
      decode .cmd [(placed 4 0 [1, 0x41]).cmd.setWidth 8] = .ok (.cmdDecompressAll, []) ∧
      ∃ u, exec .cmdDecompressAll (startPrologue (placed 4 0 [1, 0x41])) = .next u) :=
  ⟨rfl, rfl, rfl, by decide +kernel, (ends_next (check := fun _ => true) (by decide +kernel)).imp fun _ h => h.1⟩

theorem witness_EveryCommandCompletes : (placed 5 0 [1, 0x41]).top = .idle ∧
    (∀ c : BitVec 3, c = 1 ∨ c = 2 ∨ c = 3 ∨ c = 4 ∨ c = 5 → (placed c 0 [1, 0x41]).cmd = c ∧ 1 ≤ c.toNat ∧ c.toNat ≤ 5) ∧
    (placed 1 0 [1, 0x41]).inLen.toNat + ((placed 1 0 [1, 0x41]).inLen.toNat + 7) / 8 < 2 ^ 32 ∧
    4 + (placed 2 0 [1, 0x41]).inLen.toNat + ((placed 2 0 [1, 0x41]).inLen.toNat + 7) / 8 < 2 ^ 32 ∧
    9 * (placed 5 0 [1, 0x41]).inLen.toNat < 2 ^ 32 := by
  refine ⟨rfl, fun c h => ?_, by decide +kernel, by decide +kernel, by decide +kernel⟩
  rcases h with rfl | rfl | rfl | rfl | rfl <;> exact ⟨rfl, by decide⟩

theorem witness_GuardIsTheExactInequality :
    (placed 3 1991 [1]).maxOut.toNat + 10 > 2000 * (placed 3 1991 [1]).inLen.toNat := by decide +kernel

theorem witness_HeaderCheckComparesLength : (fed [1, 2, 3]).inLen.toNat < 4 ∧ 4 ≤ (fed [1, 2, 3, 4]).inLen.toNat := by
  decide +kernel

theorem witness_DecompressCommandsComplete : ((fed [1, 0x41]).ip ≤ (fed [1, 0x41]).inLim ∧
      (fed [1, 0x41]).inLim ≤ (fed [1, 0x41]).inLen ∧
      (fed [1, 0x41]).outLen.toNat + 9 * (fed [1, 0x41]).inputLeft < 2 ^ 32 ∧
      (fed [1, 0x41]).maxOut.toNat + 10 ≤ 2000 * (fed [1, 0x41]).inLen.toNat) ∧
    (fed [1, 2, 3]).inLen.toNat < 4 ∧
    (4 ≤ (fed [1, 0, 0, 0]).inLen.toNat ∧ (fed [1, 0, 0, 0]).headerField ≠ (fed [1, 0, 0, 0]).inLen.toNat - 4) ∧
    (4 ≤ (fed [0, 0, 0, 0]).inLen.toNat ∧ (fed [0, 0, 0, 0]).headerField = (fed [0, 0, 0, 0]).inLen.toNat - 4 ∧
      (fed [0, 0, 0, 0]).inLim = (fed [0, 0, 0, 0]).inLen ∧
      (fed [0, 0, 0, 0]).outLen.toNat + 9 * ((fed [0, 0, 0, 0]).inLen.toNat - 4) < 2 ^ 32) := by decide +kernel

theorem witness_CompressCommandsComplete : (fed [1, 2, 3]).ip ≤ (fed [1, 2, 3]).inLim ∧
    (fed [1, 2, 3]).inLim ≤ (fed [1, 2, 3]).inLen ∧
    (fed [1, 2, 3]).outLen.toNat + (fed [1, 2, 3]).inputLeft + ((fed [1, 2, 3]).inputLeft + 7) / 8 < 2 ^ 32 ∧
    4 + (fed [1, 2, 3]).inputLeft + ((fed [1, 2, 3]).inputLeft + 7) / 8 < 2 ^ 32 := by decide +kernel

theorem witness_SteppedRunReachesTheSameState : (placed 4 0 [1, 0x41]).host = [] ∧
    ∃ t, exec .start (placed 4 0 [1, 0x41]) = .next t :=
  ⟨rfl, (ends_next (check := fun _ => true) (by decide +kernel)).imp fun _ h => h.1⟩

/-- The same command and input on an engine that has other work behind it. -/
def placedAfter : State :=
  { placed 4 0 [1, 0x41] with top := .done, wp := 77, dflags := 0x1234, outLen := 5, text := Arr.all 9, ip := 3 }

theorem witness_CommandIgnoresHistory : (placed 4 0 [1, 0x41]).top = .idle ∧ placedAfter.top = .done ∧
    placedAfter.cmd = (placed 4 0 [1, 0x41]).cmd ∧
    placedAfter.maxOut = (placed 4 0 [1, 0x41]).maxOut ∧ placedAfter.inLen = (placed 4 0 [1, 0x41]).inLen ∧
    (∀ a, a < (placed 4 0 [1, 0x41]).inLen.toNat → placedAfter.inputByte a = (placed 4 0 [1, 0x41]).inputByte a) ∧
    (∃ t, exec .start (placed 4 0 [1, 0x41]) = .next t ∧ t.top = .done) ∧ (∃ t, exec .start placedAfter = .next t) := by
  obtain ⟨t, h, hc⟩ := ends_next (o := exec .start (placed 4 0 [1, 0x41])) (check := fun t => t.top == .done)
    (by decide +kernel)
  exact ⟨rfl, rfl, rfl, rfl, rfl, fun _ _ => rfl, ⟨t, h, by simpa using hc⟩,
    (ends_next (check := fun _ => true) (by decide +kernel)).imp fun _ h => h.1⟩

theorem witness_DecompressOfCompress : (placed 1 0 [0x41]).cmd = 1 ∧ ∃ t, exec .start (placed 1 0 [0x41]) = .next t ∧
    t.top = .done ∧ ∃ u, exec .start { t with cmd := 4, inBuf := t.outBuf, inLen := t.outLen } = .next u := by
  obtain ⟨t, h, hc⟩ := ends_next (o := exec .start (placed 1 0 [0x41]))
    (check := fun t => t.top == .done &&
      ends (exec .start { t with cmd := 4, inBuf := t.outBuf, inLen := t.outLen }) fun _ => true) (by decide +kernel)
  simp only [Bool.and_eq_true, beq_iff_eq] at hc
  exact ⟨rfl, t, h, hc.1, (ends_next hc.2).imp fun _ h => h.1⟩

theorem witness_StepRunsTheFetchedInstruction : running.host = [] ∧ running.top = .busy ∧ running.cmd = 4 ∧
    dueItem running = some .ctrl ∧ decode .ctrl (fetchBytes running) = .ok (.ctrl 0x01, [0x41]) ∧
    ({ running with host := [.start] } : State).host = .start :: [] ∧
    ({ running with host := [.reset] } : State).host = .reset :: [] ∧ (zeroed.host = [] ∧ zeroed.top = .idle) := by
  decide +kernel

theorem witness_HostWritesOnlyWhileNotBusy : zeroed.top ≠ .busy ∧
    ({ zeroed with host := [.writeCmd 7] } : State).host = .writeCmd 7 :: [] ∧
    ({ zeroed with host := [.writeMaxOut 0xFFFFFFFF] } : State).host = .writeMaxOut 0xFFFFFFFF :: [] ∧
    ({ zeroed with host := [.writeInLen 9] } : State).host = .writeInLen 9 :: [] ∧
    ({ zeroed with host := [.writeIn 0xFFFFFFFF 1] } : State).host = .writeIn 0xFFFFFFFF 1 :: [] ∧
    running.top = .busy ∧ ((faulted []).top = .fault ∧ (faulted []).host = []) := by decide +kernel

end Sys2Proof.Tests
end

section
/-! PROOFS. The fields of a MATCH token (30_encoding.md R65) and the reserved command codes (R72). -/

namespace Sys2Proof.Machine

/-! ### The fields of a MATCH token (R65) -/

/-- `B0 | ((B1 & 0xF0) << 4)` loses no bit in a word of at least 12 bits: the token's `pos` and the decoder's copy
cursor are the same number in words of two widths. -/
theorem toNat_assembledPos {w : Nat} (hw : 12 ≤ w) (b0 b1 : Byte) :
    (b0.setWidth w ||| ((b1 &&& 0xF0#8).setWidth w <<< 4)).toNat = b0.toNat ||| ((b1.toNat &&& 0xF0) <<< 4) := by
  have hwidth : 2 ^ 12 ≤ 2 ^ w := Nat.pow_le_pow_right (by decide) hw
  have hmask : b1.toNat &&& 0xF0 ≤ 0xF0 := Nat.and_le_right
  have hfield : ((b1 &&& 0xF0#8).setWidth w).toNat = b1.toNat &&& 0xF0 :=
    BitVec.toNat_setWidth_of_le (by omega)
  have hshift : (b1.toNat &&& 0xF0) <<< 4 < 2 ^ w := by rw [Nat.shiftLeft_eq]; omega
  rw [BitVec.toNat_or, BitVec.toNat_setWidth_of_le (by omega), BitVec.toNat_shiftLeft, hfield, Nat.mod_eq_of_lt hshift]

theorem toNat_matchPosOf (b0 b1 : Byte) :
    (matchPosOf b0 b1).toNat = b0.toNat ||| ((b1.toNat &&& 0xF0) <<< 4) :=
  toNat_assembledPos (le_refl 12) b0 b1

theorem toNat_matchLencOf (b1 : Byte) : (matchLencOf b1).toNat = b1.toNat &&& 0x0F := by
  rw [matchLencOf, BitVec.toNat_setWidth]
  exact (Nat.and_two_pow_sub_one_eq_mod b1.toNat 4).symm

/-- The copy cursor starts at the token's `pos` (R135). -/
theorem toNat_copyStart (b0 b1 : Byte) : (copyStart b0 b1).toNat = (matchPosOf b0 b1).toNat := by
  rw [toNat_matchPosOf]
  exact toNat_assembledPos (by decide) b0 b1

/-- The sum of R135 stays in the 13 bits of `D_END`: it is at most 15 + 2 + 4095. -/
theorem toNat_copyEnd (b0 b1 : Byte) :
    (copyEnd b0 b1).toNat = (matchLencOf b1).toNat + 2 + (matchPosOf b0 b1).toNat := by
  have hpos : (matchPosOf b0 b1).toNat < 4096 := (matchPosOf b0 b1).isLt
  have hlenc : (matchLencOf b1).toNat < 16 := (matchLencOf b1).isLt
  have hfield : ((b1 &&& 0x0F#8).setWidth 13).toNat = (matchLencOf b1).toNat := by
    rw [BitVec.toNat_setWidth_of_le (by decide), BitVec.toNat_and, toNat_matchLencOf]
    rfl
  rw [copyEnd, BitVec.toNat_add, BitVec.toNat_add, hfield, toNat_copyStart, BitVec.toNat_ofNat]
  omega

/-- Settles O4: each field as a number, then the bounds from the widths of `pos` and `lenc`. -/
theorem matchFieldsAssemble : Obligations.MatchFieldsAssemble := by
  intro b0 b1
  have hpos : (matchPosOf b0 b1).toNat < 4096 := (matchPosOf b0 b1).isLt
  have hlenc : (matchLencOf b1).toNat < 16 := (matchLencOf b1).isLt
  have hend := toNat_copyEnd b0 b1
  exact ⟨toNat_matchPosOf b0 b1, by omega, toNat_matchLencOf b1, toNat_copyStart b0 b1, hend,
    by omega, by omega, by omega⟩

/-! ### The reserved command codes (R72) -/

/-- The three reserved rows have one meaning. -/
theorem exec_reserved {i : Instr} (h : i = .cmdReserved0 ∨ i = .cmdReserved6 ∨ i = .cmdReserved7) (s : State) :
    exec i s = .next (takeFault .badCmd s) := by
  rcases h with rfl | rfl | rfl <;> rfl

theorem commandOp_reserved (P : Config.Params) {c : BitVec 3} (h : c = 0 ∨ c = 6 ∨ c = 7) :
    commandOp P c = raise .badCmd := by
  rcases h with rfl | rfl | rfl <;> rfl

/-- `START` is heeded in `IDLE` and `DONE` (R150). -/
theorem startIgnored_eq_false {s : State} (h : s.top = .idle ∨ s.top = .done) : startIgnored s = false := by
  rcases h with h | h <;> simp [startIgnored, h]

/-- What ends the command early ends `START`, in the state the command left. -/
theorem opStart_of_error {P : Config.Params} {s t : State} {e : Halt} (h : s.top = .idle ∨ s.top = .done)
    (hcmd : commandOp P s.cmd (startPrologue s) = .error e t) : opStart P s = .error e t := by
  simp only [opStart, startIgnored_eq_false h, Bool.false_eq_true, if_false, upd_bind]
  exact bind_of_error hcmd

/-- Settles O48: the reserved rows raise `F_BADCMD` at once, `START` after its prologue. -/
theorem reservedCommandsFault : Obligations.ReservedCommandsFault := by
  refine ⟨fun i s hi => ⟨_, exec_reserved hi s, tookFault_takeFault _ _⟩, fun s htop hcmd => ?_⟩
  have hraise : commandOp Config.params s.cmd (startPrologue s) = .error (.raise .badCmd) (startPrologue s) := by
    rw [commandOp_reserved _ hcmd, raise_apply]
  exact ⟨_, finish_of_raise (opStart_of_error htop hraise), tookFault_takeFault _ _⟩

end Sys2Proof.Machine
end

section
/-! PROOFS. The history window (40_history_window.md R81). -/

namespace Sys2Proof.Machine

/-- Inside the window: `TEXT` is all that changes. -/
theorem exec_winWrite_ok {pos : Nat} (h : pos < Config.windowSize) (b : Byte) (s : State) :
    exec (.winWrite pos b) s = .next { s with text := textAfterWrite s.text pos b } :=
  finish_of_ok (opWinWrite_ok h b s)

/-- Outside the window: the fault entry. -/
theorem exec_winWrite_fault {pos : Nat} (h : ¬ pos < Config.windowSize) (b : Byte) (s : State) :
    exec (.winWrite pos b) s = .next (takeFault .window s) :=
  finish_of_raise (opWinWrite_fault h b s)

/-- Settles O14: the two outcomes of the bounds check on `pos`, and the bytes of `TEXT` after the write. -/
theorem winWriteSetsPositionAndMirror : Obligations.WinWriteSetsPositionAndMirror := by
  refine ⟨fun pos b s hpos => ?_, fun pos b s hpos => ?_⟩
  · have hin : pos < Config.windowSize := Nat.lt_succ_of_le hpos
    exact ⟨_, exec_winWrite_ok hin b s, read_textAfterWrite s.text pos b, rfl⟩
  · have hout : ¬ pos < Config.windowSize := Nat.not_lt_of_le hpos
    exact ⟨_, exec_winWrite_fault hout b s, tookFault_takeFault _ _⟩

end Sys2Proof.Machine
end

section
/-! PROOFS. The empty match index (41_match_index.md R90). -/

namespace Sys2Proof.Machine

/-! ### An index with no linked node -/

/-- Every real node is unlinked. -/
def State.AllUnlinked (s : State) : Prop := ∀ p, p < Config.windowSize → s.dad.read p = Config.nil

/-- Every link of every root is NIL. -/
def State.RootsNil (s : State) : Prop :=
  ∀ c, c < 256 → ∀ l, (s.link l).read (Config.windowSize + c) = Config.nil

/-- Where no real node is linked, only the roots are in a tree. -/
theorem State.AllUnlinked.exists_root_of_inTree {s : State} (hu : s.AllUnlinked) {d : Nat} (h : s.inTree d) :
    ∃ c, c < 256 ∧ d = Config.windowSize + c := by
  rcases h with ⟨hlo, hhi⟩ | ⟨hd, hlinked⟩
  · obtain ⟨c, rfl⟩ := Nat.exists_eq_add_of_le hlo
    exact ⟨c, Nat.lt_of_add_lt_add_left hhi, rfl⟩
  · exact absurd (hu d hd) hlinked

/-- The child links of unlinked real nodes have no say in it: they may be stale (R90). -/
theorem State.AllUnlinked.indexInv {s : State} (hu : s.AllUnlinked) (hr : s.RootsNil) : s.IndexInv where
  parent p hp hlinked := absurd (hu p hp) hlinked
  child d hd l _ := by
    obtain ⟨c, hc, rfl⟩ := hu.exists_root_of_inTree hd
    exact .inl (hr c hc l)
  roots c hc := ⟨hr c hc .lson, hr c hc .dad⟩
  acyclic := ⟨fun _ => 0, fun p hp hlinked => absurd (hu p hp) hlinked⟩

theorem State.AllUnlinked.searchTrees {s : State} (hu : s.AllUnlinked) : s.SearchTrees where
  bucket p hp hlinked := absurd (hu p hp) hlinked
  left d _ hd hlinked := absurd (hu d hd) hlinked
  right d _ hd hlinked := absurd (hu d hd) hlinked

/-! ### `IDX.INIT` (R90) -/

/-- The 256 links of the roots in one child array set to NIL. -/
def emptyRoots (m : Arr 13) : Arr 13 := Arr.writeRange 4096 Config.nil 256 m

/-- The state `IDX.INIT` leaves. Its fields are read through the lemmas below it: an `rfl` through `emptyRoots` would run
the 256 writes. -/
def emptyIndex (s : State) : State :=
  { s with
    rson := emptyRoots s.rson
    lson := emptyRoots s.lson
    dad := Arr.all Config.nil
    matchLen := 0
    matchPos := 0 }

@[simp] theorem emptyIndex_rson (s : State) : (emptyIndex s).rson = emptyRoots s.rson := by simp only [emptyIndex]
@[simp] theorem emptyIndex_lson (s : State) : (emptyIndex s).lson = emptyRoots s.lson := by simp only [emptyIndex]
@[simp] theorem emptyIndex_dad (s : State) : (emptyIndex s).dad = Arr.all Config.nil := rfl

theorem opIdxInit_ok (s : State) : opIdxInit s = .ok () (emptyIndex s) := by
  simp only [opIdxInit, upd_bind, upd_apply, emptyIndex, emptyRoots]

theorem exec_idxInit (s : State) : exec .idxInit s = .next (emptyIndex s) := finish_of_ok (opIdxInit_ok s)

theorem read_emptyRoots_root (m : Arr 13) {c : Nat} (hc : c < 256) :
    (emptyRoots m).read (Config.windowSize + c) = Config.nil := by
  rw [emptyRoots, Arr.read_writeRange, Config.windowSize, if_pos (by omega)]

theorem read_emptyRoots_real (m : Arr 13) {p : Nat} (hp : p < Config.windowSize) : (emptyRoots m).read p = m.read p := by
  have hbelow : ¬ 4096 ≤ p := Nat.not_le_of_lt hp
  rw [emptyRoots, Arr.read_writeRange, if_neg (fun h => hbelow h.1)]

theorem emptyIndex_allUnlinked (s : State) : (emptyIndex s).AllUnlinked := by
  intro p _
  rw [emptyIndex_dad, Arr.read_all]

theorem emptyIndex_rootsNil (s : State) : (emptyIndex s).RootsNil := by
  intro c hc l
  cases l with
  | lson => rw [State.link_lson, emptyIndex_lson, read_emptyRoots_root s.lson hc]
  | rson => rw [State.link_rson, emptyIndex_rson, read_emptyRoots_root s.rson hc]
  | dad => rw [State.link_dad, emptyIndex_dad, Arr.read_all]

/-- Settles O17: the roots' links and every parent link are NIL in the state `IDX.INIT` leaves, which is enough for the
invariants of R17 whatever the child links of real nodes hold. -/
theorem idxInitEmptiesEveryTree : Obligations.IdxInitEmptiesEveryTree := by
  intro s
  have hu := emptyIndex_allUnlinked s
  have hr := emptyIndex_rootsNil s
  refine ⟨emptyIndex s, exec_idxInit s, fun c hc => ⟨hr c hc .rson, hr c hc .lson, hr c hc .dad⟩,
    fun p hp => ⟨hu p hp, ?_, ?_⟩, rfl, rfl, hu.indexInv hr, hu.searchTrees, by simp only [emptyIndex]⟩
  · rw [emptyIndex_lson, read_emptyRoots_real s.lson hp]
  · rw [emptyIndex_rson, read_emptyRoots_real s.rson hp]

end Sys2Proof.Machine
end

section
/-! PROOFS. The state an encoder run starts from (42_encoder_fsm.md R111). -/

namespace Sys2Proof.Machine

/-- The state `E_INIT` leaves: a cleared window, an empty index, an empty block and the cursors. As with `emptyIndex`, the
lemmas below read its links: an `rfl` between link arrays would run the 256 writes. -/
def encoderStart (P : Config.Params) (s : State) : State :=
  { emptyIndex { s with text := Arr.all 0 } with
    cb := s.cb.write 0 0
    cbp := 1
    mask := 1
    wp := BitVec.ofNat 12 (P.rStart + 18)
    eR := BitVec.ofNat 12 P.rStart
    eLen := 0
    eState := .seedFill }

theorem opEInit_ok (P : Config.Params) (s : State) : opEInit P s = .ok () (encoderStart P s) := by
  have hcb : 0 < Config.cbSize := by decide
  simp only [opEInit, opWinClear, upd_bind]
  rw [bind_of_ok (opIdxInit_ok _), bind_of_ok (writeCb_ok hcb)]
  simp only [upd_bind, upd_apply, encoderStart, emptyIndex]

theorem exec_eInit (s : State) : exec .eInit s = .next (encoderStart Config.params s) :=
  finish_of_ok (opEInit_ok Config.params s)

/-- The links are those `IDX.INIT` leaves. -/
theorem encoderStart_link (P : Config.Params) (s : State) (l : Link) :
    (encoderStart P s).link l = (emptyIndex { s with text := Arr.all 0 }).link l := by
  cases l <;> simp only [encoderStart, State.link_lson, State.link_rson, State.link_dad]

@[simp] theorem encoderStart_text (P : Config.Params) (s : State) : (encoderStart P s).text = Arr.all 0 := by
  simp only [encoderStart, emptyIndex]

@[simp] theorem encoderStart_cb (P : Config.Params) (s : State) : (encoderStart P s).cb = s.cb.write 0 0 := rfl

@[simp] theorem encoderStart_dad (P : Config.Params) (s : State) : (encoderStart P s).dad = Arr.all Config.nil := rfl

theorem encoderStart_allUnlinked (P : Config.Params) (s : State) : (encoderStart P s).AllUnlinked := by
  intro p _
  rw [encoderStart_dad, Arr.read_all]

theorem encoderStart_rootsNil (P : Config.Params) (s : State) : (encoderStart P s).RootsNil := by
  intro c hc l
  rw [encoderStart_link, emptyIndex_rootsNil _ c hc l]

/-- Settles O25: an index with no linked node and bare roots meets the invariants of R17, and the outgoing-slot cursor
`(4078 + 18) mod 4096` is 0 in the 12 bits of `WP`. -/
theorem eInitSetsUpTheRun : Obligations.EInitSetsUpTheRun := by
  intro s
  have hu := encoderStart_allUnlinked Config.params s
  have hr := encoderStart_rootsNil Config.params s
  refine ⟨encoderStart Config.params s, exec_eInit s, fun u _ => ?_, fun c hc => hr c hc .rson, fun p _ => ?_,
    hu.indexInv hr, hu.searchTrees, rfl, rfl, ?_, fun j hj => ?_, rfl, rfl, rfl, rfl, rfl, rfl,
    by simp only [encoderStart, emptyIndex]⟩
  · rw [encoderStart_text, Arr.read_all]
  · rw [encoderStart_dad, Arr.read_all]
  · rw [encoderStart_cb, Arr.read_write_same]
  · rw [encoderStart_cb, Arr.read_write_other s.cb hj]

end Sys2Proof.Machine
end

section
/-! PROOFS. The decoder states that start a run and read the coded stream: `D_INIT`, `D_FLAG`, `D_LIT`, `D_MATCH`
(43_decoder_fsm.md R131, R133 to R135). -/

namespace Sys2Proof.Machine

variable {P : Config.Params} {s : State}

/-! ### Reading below the input limit (R21) -/

/-- A byte below `IN_LIM` is a byte of `IN` as long as the limit is inside it. -/
theorem ip_lt_inLen (hip : s.ip < s.inLim) (hlim : s.inLim ≤ s.inLen) : s.ip.toNat < s.inLen.toNat :=
  Nat.lt_of_lt_of_le hip hlim

/-! ### Shared statements inside a sequence -/

/-- A byte of `IN` read inside a sequence. -/
theorem inByte_bind {β : Type} {a : Nat} (h : a < s.inLen.toNat) (f : Byte → Op β) :
    (inByte a >>= f) s = f (s.inBuf.read a) s :=
  bind_of_ok (inByte_ok h)

/-- A byte appended to `OUT` inside a sequence. -/
theorem emit_bind {β : Type} (h : s.outLen.toNat + 1 < 2 ^ P.lenW) (v : Byte) (f : Unit → Op β) :
    (emit P v >>= f) s = f () { s with outBuf := s.outBuf.write s.outLen.toNat v, outLen := s.outLen + 1 } :=
  bind_of_ok (emit_ok h)

/-- A byte put in the window inside a sequence. -/
theorem opWinPut_bind {β : Type} (b : Byte) (f : Pos → Op β) (s : State) :
    (opWinPut b >>= f) s = f s.wp { s with text := textAfterWrite s.text s.wp.toNat b, wp := s.wp + 1 } :=
  bind_of_ok (opWinPut_ok b s)

@[simp] theorem stopRun_apply (c : StopCode) (s : State) :
    stopRun c s = .ok () { s with stop := c, dState := .stop } := rfl

/-! ### `D_INIT` (R131) -/

theorem opDInit_ok (P : Config.Params) (s : State) :
    opDInit P s = .ok () { s with text := Arr.all 0, wp := BitVec.ofNat 12 P.rStart, dflags := 0, dState := .check } := by
  simp only [opDInit, opWinClear, upd_bind, upd_apply]

/-- Settles O37: every element of the cleared window reads 0, and `WP` is the 4078 of `R_START`. -/
theorem dInitSetsUpTheRun : Obligations.DInitSetsUpTheRun := by
  intro s
  exact ⟨_, finish_of_ok (opDInit_ok Config.params s), fun u _ => Arr.read_all 0 u, rfl, rfl, rfl, rfl⟩

/-! ### `D_FLAG` (R133) -/

@[simp] theorem selectByFlag_apply (s : State) : selectByFlag s = .ok () { s with dState := flagTarget s.dflags } := rfl

theorem reloadFlags_ok (h : s.ip.toNat < s.inLen.toNat) :
    reloadFlags s = .ok () { s with dflags := flagLoad (s.inputByte s.ip.toNat), ip := s.ip + 1 } := by
  simp only [reloadFlags, getS_bind, inByte_bind h, upd_bind, upd_apply, State.inputByte]

theorem flagsExhausted_eq_false {f : BitVec 16} (h : f.getLsbD 8 = true) : flagsExhausted f = false := by
  rw [flagsExhausted, h, Bool.not_true]

theorem flagsExhausted_eq_true {f : BitVec 16} (h : f.getLsbD 8 = false) : flagsExhausted f = true := by
  rw [flagsExhausted, h, Bool.not_false]

/-- A freshly loaded cache selects by the control byte's own bit 0: the load sets only bits 8 to 15 besides. -/
theorem flagTarget_flagLoad (b : Byte) : flagTarget (flagLoad b) = if b.getLsbD 0 then .lit else .matchTok := by
  have hbit : flagIsLiteral (flagLoad b) = b.getLsbD 0 := by simp [flagIsLiteral, flagLoad]
  rw [flagTarget, hbit]

/-- A flag is left in the cache. -/
theorem opDFlag_shift (h : flagsExhausted (flagShift s.dflags) = false) :
    opDFlag s = .ok () { s with dflags := flagShift s.dflags, dState := flagTarget (flagShift s.dflags) } := by
  simp only [opDFlag, upd_bind, getS_bind, h, Bool.false_eq_true, if_false, selectByFlag_apply]

/-- The cache is exhausted and a control byte is left. -/
theorem opDFlag_reload (h : flagsExhausted (flagShift s.dflags) = true) (hip : s.ip < s.inLim)
    (hlim : s.inLim ≤ s.inLen) :
    opDFlag s = .ok () { s with
      dflags := flagLoad (s.inputByte s.ip.toNat)
      ip := s.ip + 1
      dState := flagTarget (flagLoad (s.inputByte s.ip.toNat)) } := by
  have hleft : ¬ s.inLim ≤ s.ip := BitVec.not_le.mpr hip
  simp only [opDFlag, upd_bind, getS_bind, h, if_true, if_neg hleft]
  exact bind_of_ok (reloadFlags_ok (s := { s with dflags := flagShift s.dflags }) (ip_lt_inLen hip hlim))

/-- The cache is exhausted at the end of the input: the shift stands. -/
theorem opDFlag_inEnd (h : flagsExhausted (flagShift s.dflags) = true) (hend : s.inLim ≤ s.ip) :
    opDFlag s = .ok () { s with dflags := flagShift s.dflags, stop := .inEnd, dState := .stop } := by
  simp only [opDFlag, upd_bind, getS_bind, h, if_true, if_pos hend, stopRun_apply]

/-- Settles O39: bit 8 of the shifted cache says whether a flag is left, and `IN_LIM` whether one can be loaded. -/
theorem dFlagShiftsOrReloads : Obligations.DFlagShiftsOrReloads := by
  refine ⟨fun s hbit => ?_, fun s hbit hip hlim => ?_, fun s hbit hend => ?_⟩
  · exact finish_of_ok (opDFlag_shift (flagsExhausted_eq_false hbit))
  · rw [← flagTarget_flagLoad]
    exact finish_of_ok (opDFlag_reload (flagsExhausted_eq_true hbit) hip hlim)
  · exact finish_of_ok (opDFlag_inEnd (flagsExhausted_eq_true hbit) hend)

/-! ### `D_LIT` (R134) -/

/-- What `D_LIT` does once a byte is left to read. -/
theorem opDLit_of_byte (P : Config.Params) (hip : s.ip < s.inLim) (hlim : s.inLim ≤ s.inLen) :
    opDLit P s = opLitItem P (s.inputByte s.ip.toNat) s := by
  have hleft : ¬ s.inLim ≤ s.ip := BitVec.not_le.mpr hip
  simp only [opDLit, getS_bind, if_neg hleft]
  exact bind_of_ok (nextByte_ok (ip_lt_inLen hip hlim))

/-- A literal with room for it in `OUT`. -/
theorem opLitItem_ok (h : s.outLen.toNat + 1 < 2 ^ P.lenW) (b : Byte) :
    opLitItem P b s = .ok () { s with
      ip := s.ip + 1
      outBuf := s.outBuf.write s.outLen.toNat b
      outLen := s.outLen + 1
      text := textAfterWrite s.text s.wp.toNat b
      wp := s.wp + 1
      dState := .check } := by
  simp only [opLitItem, upd_bind, emit_bind, h, opWinPut_bind, upd_apply]

/-- A literal with no room for it: its byte is consumed all the same. -/
theorem opLitItem_fault (h : 2 ^ P.lenW ≤ s.outLen.toNat + 1) (b : Byte) :
    opLitItem P b s = .error (.raise .len) { s with ip := s.ip + 1 } := by
  rw [opLitItem, upd_bind]
  exact bind_of_error (emit_fault h)

theorem opDLit_inEnd (P : Config.Params) (hend : s.inLim ≤ s.ip) :
    opDLit P s = .ok () { s with stop := .inEnd, dState := .stop } := by
  simp only [opDLit, getS_bind, if_pos hend, stopRun_apply]

/-- Settles O41: with a byte left `D_LIT` is the literal item on it, whose one fault is that of `Emit`. -/
theorem dLitEmitsAndStores : Obligations.DLitEmitsAndStores := by
  refine ⟨fun s b hip hlim hb hroom => ?_, fun s hend => ?_, fun s hip hlim hfull => ?_⟩
  · subst hb
    have hfits : s.outLen.toNat + 1 < 2 ^ Config.params.lenW := Nat.add_lt_of_lt_sub hroom
    refine ⟨_, finish_of_ok ((opDLit_of_byte Config.params hip hlim).trans (opLitItem_ok hfits _)), rfl, rfl, ?_, ?_,
      rfl, rfl, rfl⟩
    · exact fun a => Arr.read_write s.outBuf s.outLen.toNat a _
    · exact fun u => read_textAfterWrite s.text s.wp.toNat _ u
  · exact finish_of_ok (opDLit_inEnd Config.params hend)
  · have hover : 2 ^ Config.params.lenW ≤ s.outLen.toNat + 1 := by rw [hfull]; decide
    exact ⟨_, finish_of_raise ((opDLit_of_byte Config.params hip hlim).trans (opLitItem_fault hover _)), rfl, rfl⟩

/-! ### `D_MATCH` (R135) -/

theorem opDMatch_ok (hip : s.ip.toNat + 1 < s.inLim.toNat) (hlim : s.inLim ≤ s.inLen) :
    opDMatch s = .ok () { s with
      dB0 := s.inputByte s.ip.toNat
      dB1 := s.inputByte (s.ip.toNat + 1)
      ip := s.ip + 2
      dK := copyStart (s.inputByte s.ip.toNat) (s.inputByte (s.ip.toNat + 1))
      dEnd := copyEnd (s.inputByte s.ip.toNat) (s.inputByte (s.ip.toNat + 1))
      dState := .copy } := by
  have hfirst : ¬ s.inLim ≤ s.ip := BitVec.not_le.mpr (Nat.lt_of_succ_lt hip)
  have hsecond : s.ip.toNat + 1 < s.inLen.toNat := Nat.lt_of_lt_of_le hip hlim
  simp only [opDMatch, getS_bind, if_neg hfirst, if_neg (Nat.not_le_of_lt hip), inByte_bind,
    Nat.lt_of_succ_lt hsecond, hsecond, upd_bind, upd_apply, State.inputByte]

theorem opDMatch_inEnd (hend : s.inLim ≤ s.ip) : opDMatch s = .ok () { s with stop := .inEnd, dState := .stop } := by
  simp only [opDMatch, getS_bind, if_pos hend, stopRun_apply]

/-- One byte is left: the token is truncated. -/
theorem opDMatch_trunc (hone : s.inLim.toNat = s.ip.toNat + 1) :
    opDMatch s = .ok () { s with stop := .trunc, dState := .stop } := by
  have hfirst : ¬ s.inLim ≤ s.ip := BitVec.not_le.mpr (Nat.lt_of_succ_le hone.ge)
  simp only [opDMatch, getS_bind, if_neg hfirst, if_pos hone.le, stopRun_apply]

/-- Settles O42: two bytes left, none, or one; the token's fields are those of R65. -/
theorem dMatchAssemblesOrStops : Obligations.DMatchAssemblesOrStops := by
  refine ⟨fun s b0 b1 hip hlim hb0 hb1 => ?_, fun s hend => finish_of_ok (opDMatch_inEnd hend),
    fun s hone => finish_of_ok (opDMatch_trunc hone)⟩
  subst hb0 hb1
  refine ⟨_, finish_of_ok (opDMatch_ok hip hlim), rfl, rfl, rfl, ?_, ?_, rfl, rfl⟩
  · exact (toNat_copyStart _ _).trans (toNat_matchPosOf _ _)
  · rw [toNat_copyEnd, toNat_matchLencOf, toNat_copyStart]

end Sys2Proof.Machine
end

section
/-! PROOFS. What no run of an FSM writes: `TOP`, `FCODE` and what the host sets (R110 to R141, R150 to R157). Only a fault
entry writes the first two (R173), and it is no statement of a run. -/

namespace Sys2Proof.Machine

/-- `TOP`, `FCODE`, and the registers, buffer and moves that are the host's: what the command is told and what the host
is told of it, apart from the answer. -/
structure Control where
  top : Top
  fcode : Option FCode
  cmd : BitVec 3
  maxOut : Len
  inLen : Len
  inBuf : Arr 8
  host : List HostAct

/-- The control part of a state. -/
def State.control (s : State) : Control :=
  { top := s.top, fcode := s.fcode, cmd := s.cmd, maxOut := s.maxOut, inLen := s.inLen, inBuf := s.inBuf, host := s.host }

/-- The state's control part is the given one. -/
def HasControl (c : Control) (s : State) : Prop := s.control = c

theorem HasControl.top_eq {c : Control} {s : State} (h : HasControl c s) : s.top = c.top := congrArg Control.top h

variable {α : Type} {c : Control} {P : Config.Params}

/-! ### Composing sequences that keep a property -/

/-- A statement with two branches. -/
theorem Keeps.ite {Q : State → Prop} {p : Prop} [Decidable p] {m n : Op α} (hm : Keeps Q m) (hn : Keeps Q n) :
    Keeps Q (if p then m else n) := by
  split_ifs
  · exact hm
  · exact hn

/-- An update of fields outside the control part, which is what every register write of a run is. -/
theorem keepsControl_upd {f : State → State}
    (h : ∀ s, (f s).control = s.control := by intro s; simp only [State.control]) :
    Keeps (HasControl c) (upd f) :=
  keeps_upd fun s hs => (h s).trans hs

/-! ### Arrays and buffers -/

theorem hasControl_setLink (l : Link) (s : State) (m : Arr 13) (h : HasControl c s) : HasControl c (s.setLink l m) := by
  cases l <;> exact h

theorem keepsControl_writeLink (l : Link) (i : Nat) (v : Node) : Keeps (HasControl c) (writeLink l i v) :=
  keeps_writeLink (hasControl_setLink l)

theorem keepsControl_setDad (i v : Node) : Keeps (HasControl c) (setDad i v) := keeps_setDad (hasControl_setLink .dad)

theorem keepsControl_writeText (u : Nat) (b : Byte) : Keeps (HasControl c) (writeText u b) := by
  intro s hs
  unfold writeText
  split_ifs <;> exact hs

theorem keepsControl_writeCb (i : Nat) (b : Byte) : Keeps (HasControl c) (writeCb i b) := by
  intro s hs
  unfold writeCb
  split_ifs <;> exact hs

theorem keepsControl_emit (P : Config.Params) (v : Byte) : Keeps (HasControl c) (emit P v) := by
  intro s hs
  unfold emit
  split_ifs <;> exact hs

theorem keepsControl_nextByte : Keeps (HasControl c) nextByte :=
  keeps_getS.bind fun s => (keeps_inByte s.ip.toNat).bind fun b => .bind keepsControl_upd fun _ => keeps_pure b

/-! ### The window -/

theorem keepsControl_opWinWrite (pos : Nat) (b : Byte) : Keeps (HasControl c) (opWinWrite pos b) :=
  .ite ((keepsControl_writeText pos b).bind fun _ => .whenOp _ (keepsControl_writeText _ b)) (keeps_raise _)

theorem keepsControl_opWinPut (b : Byte) : Keeps (HasControl c) (opWinPut b) :=
  keeps_getS.bind fun s => (keepsControl_opWinWrite _ b).bind fun _ => .bind keepsControl_upd fun _ => keeps_pure s.wp

/-! ### The index -/

theorem keepsControl_opIdxInit : Keeps (HasControl c) opIdxInit :=
  .bind keepsControl_upd fun _ => .bind keepsControl_upd fun _ => .bind keepsControl_upd fun _ =>
    .bind keepsControl_upd fun _ => keepsControl_upd

theorem keepsControl_compareKeys (r n : Nat) : Keeps (HasControl c) (compareKeys r n) := by
  induction n with
  | zero => exact keeps_pure ()
  | succ n ih =>
    exact keeps_getS.bind fun s => (keeps_readText _).bind fun a => (keeps_readText _).bind fun b =>
      .bind keepsControl_upd fun _ => .whenOp _ (.bind keepsControl_upd fun _ => ih)

theorem keepsControl_insertCompare (r : Nat) : Keeps (HasControl c) (insertCompare r) :=
  keeps_getS.bind fun _ => .ite (.bind keepsControl_upd fun _ => keepsControl_compareKeys r _) (keeps_raise _)

theorem keepsControl_redirectChild (d old new : Node) : Keeps (HasControl c) (redirectChild d old new) :=
  (keeps_readLink _ _).bind fun _ => .ite (keepsControl_writeLink _ _ _) (keepsControl_writeLink _ _ _)

theorem keepsControl_insertReplace (r : Nat) : Keeps (HasControl c) (insertReplace r) :=
  keeps_getS.bind fun s =>
    (keeps_readLink .dad _).bind fun d => (keepsControl_writeLink .dad r d).bind fun _ =>
    (keeps_readLink .lson _).bind fun l => (keepsControl_writeLink .lson r l).bind fun _ =>
    (keeps_readLink .rson _).bind fun q => (keepsControl_writeLink .rson r q).bind fun _ =>
    (keeps_readLink .lson _).bind fun l' => (keepsControl_setDad l' _).bind fun _ =>
    (keeps_readLink .rson _).bind fun q' => (keepsControl_setDad q' _).bind fun _ =>
    (keeps_readLink .dad _).bind fun d' => (keepsControl_redirectChild d' s.iP _).bind fun _ =>
    keepsControl_writeLink .dad _ _

theorem keepsControl_insertAttach (l : Link) (r : Nat) : Keeps (HasControl c) (insertAttach l r) :=
  keeps_getS.bind fun _ => (keepsControl_writeLink l _ _).bind fun _ => keepsControl_writeLink .dad r _

theorem keepsControl_insertDescend (r n : Nat) : Keeps (HasControl c) (insertDescend r n) := by
  induction n with
  | zero => exact keeps_diverge
  | succ n ih =>
    have hupdate := keepsControl_insertReplace (c := c) r
    exact keeps_getS.bind fun s => (keeps_readLink _ _).bind fun next => .ite (keepsControl_insertAttach _ r) <|
      .bind keepsControl_upd fun _ => (keepsControl_insertCompare r).bind fun _ => keeps_getS.bind fun t =>
        .ite (.bind keepsControl_upd fun _ => .ite hupdate ih) ih

theorem keepsControl_opIdxInsert (r : Nat) : Keeps (HasControl c) (opIdxInsert r) :=
  .bind keepsControl_upd fun _ => (keeps_readText r).bind fun _ => .bind keepsControl_upd fun _ =>
    (keepsControl_writeLink .rson r _).bind fun _ => (keepsControl_writeLink .lson r _).bind fun _ =>
    .bind keepsControl_upd fun _ => keepsControl_insertDescend r walkBound

theorem keepsControl_walkRight (n : Nat) : Keeps (HasControl c) (walkRight n) := by
  induction n with
  | zero => exact keeps_diverge
  | succ n ih =>
    exact keeps_getS.bind fun s => (keeps_readLink .rson _).bind fun next => .bind keepsControl_upd fun _ =>
      (keeps_readLink .rson _).bind fun after => .whenOp _ ih

theorem keepsControl_deleteSplice (p : Nat) : Keeps (HasControl c) (deleteSplice p) :=
  (keepsControl_walkRight walkBound).bind fun _ => keeps_getS.bind fun s =>
    (keeps_readLink .dad _).bind fun _ => (keeps_readLink .lson _).bind fun l =>
    (keepsControl_writeLink .rson _ l).bind fun _ =>
    (keeps_readLink .lson _).bind fun l' => (keeps_readLink .dad _).bind fun d' =>
    (keepsControl_setDad l' d').bind fun _ =>
    (keeps_readLink .lson p).bind fun lp => (keepsControl_writeLink .lson _ lp).bind fun _ =>
    (keeps_readLink .lson p).bind fun lp' => keepsControl_setDad lp' s.dQ

theorem keepsControl_deleteTwo (p : Nat) : Keeps (HasControl c) (deleteTwo p) :=
  (keeps_readLink .lson p).bind fun l => .bind keepsControl_upd fun _ => (keeps_readLink .rson _).bind fun r =>
    (Keeps.whenOp _ (keepsControl_deleteSplice p)).bind fun _ => keeps_getS.bind fun s =>
    (keeps_readLink .rson p).bind fun rp => (keepsControl_writeLink .rson _ rp).bind fun _ =>
    (keeps_readLink .rson p).bind fun rp' => keepsControl_setDad rp' s.dQ

theorem keepsControl_deleteChoose (p : Nat) : Keeps (HasControl c) (deleteChoose p) :=
  (keeps_readLink .rson p).bind fun _ =>
    .ite ((keeps_readLink .lson p).bind fun _ => keepsControl_upd) <|
      (keeps_readLink .lson p).bind fun _ =>
        .ite ((keeps_readLink .rson p).bind fun _ => keepsControl_upd) (keepsControl_deleteTwo p)

theorem keepsControl_opIdxDelete (p : Nat) : Keeps (HasControl c) (opIdxDelete p) :=
  (keeps_readLink .dad p).bind fun _ => .ite (keeps_pure ()) <|
    (keepsControl_deleteChoose p).bind fun _ => keeps_getS.bind fun s =>
    (keeps_readLink .dad p).bind fun d' => (keepsControl_setDad s.dQ d').bind fun _ =>
    (keeps_readLink .dad p).bind fun d'' => (keepsControl_redirectChild d'' _ s.dQ).bind fun _ =>
    keepsControl_writeLink .dad p _

/-! ### The encoder -/

theorem keepsControl_opEInit : Keeps (HasControl c) (opEInit P) :=
  .bind keepsControl_upd fun _ => keepsControl_opIdxInit.bind fun _ => (keepsControl_writeCb 0 0).bind fun _ =>
    .bind keepsControl_upd fun _ => .bind keepsControl_upd fun _ => keepsControl_upd

theorem keepsControl_seedFillLoop (n : Nat) : Keeps (HasControl c) (seedFillLoop P n) := by
  induction n with
  | zero => exact keeps_pure ()
  | succ n ih =>
    exact fun s => Keeps.whenOp _ ((keeps_inByte _).bind fun b => (keepsControl_opWinWrite _ b).bind fun _ =>
      .bind keepsControl_upd fun _ => .bind keepsControl_upd fun _ => ih) s

theorem keepsControl_opESeedFill : Keeps (HasControl c) (opESeedFill P) :=
  (keepsControl_seedFillLoop 18).bind fun _ => keepsControl_upd

theorem keepsControl_seedInserts (start n i : Nat) : Keeps (HasControl c) (seedInserts start n i) := by
  induction n generalizing i with
  | zero => exact keeps_pure ()
  | succ n ih => exact (keepsControl_opIdxInsert _).bind fun _ => ih (i + 1)

theorem keepsControl_opESeedIndex : Keeps (HasControl c) (opESeedIndex P) :=
  (keepsControl_seedInserts _ _ 1).bind fun _ => (keepsControl_opIdxInsert _).bind fun _ => keepsControl_upd

theorem keepsControl_selectLiteral : Keeps (HasControl c) selectLiteral :=
  .bind keepsControl_upd fun _ => (keeps_readCb 0).bind fun flags => keeps_getS.bind fun s =>
    (keepsControl_writeCb 0 _).bind fun _ => (keeps_readText _).bind fun b =>
    (keepsControl_writeCb _ b).bind fun _ => keepsControl_upd

theorem keepsControl_selectMatch : Keeps (HasControl c) selectMatch :=
  keeps_getS.bind fun s => (keepsControl_writeCb _ _).bind fun _ => .bind keepsControl_upd fun _ =>
    keeps_getS.bind fun t => (keepsControl_writeCb _ _).bind fun _ => keepsControl_upd

theorem keepsControl_selectToken : Keeps (HasControl c) selectToken := by
  intro s hs
  unfold selectToken
  split_ifs
  · exact keepsControl_selectLiteral s hs
  · exact keepsControl_selectMatch s hs

theorem keepsControl_opESelect : Keeps (HasControl c) opESelect :=
  .bind keepsControl_upd fun _ => keepsControl_selectToken.bind fun _ => keepsControl_upd

theorem keepsControl_emitBlock (n j : Nat) : Keeps (HasControl c) (emitBlock P n j) := by
  induction n generalizing j with
  | zero => exact keeps_pure ()
  | succ n ih => exact (keeps_readCb j).bind fun b => (keepsControl_emit P b).bind fun _ => ih (j + 1)

theorem keepsControl_flushBlock : Keeps (HasControl c) (flushBlock P) :=
  fun s => keepsControl_emitBlock s.cbp.toNat 0 s

theorem keepsControl_opEBlock : Keeps (HasControl c) (opEBlock P) :=
  .bind keepsControl_upd fun _ => keeps_getS.bind fun s =>
    .bind (.whenOp _ <| keepsControl_flushBlock.bind fun _ => (keepsControl_writeCb 0 0).bind fun _ =>
      .bind keepsControl_upd fun _ => keepsControl_upd) fun _ => keepsControl_upd

theorem keepsControl_advanceOne : Keeps (HasControl c) advanceOne :=
  keepsControl_nextByte.bind fun b => keeps_getS.bind fun s => (keepsControl_opIdxDelete _).bind fun _ =>
    (keepsControl_opWinPut b).bind fun _ => .bind keepsControl_upd fun _ => keeps_getS.bind fun t =>
    (keepsControl_opIdxInsert _).bind fun _ => keepsControl_upd

theorem keepsControl_advanceLoop (n : Nat) : Keeps (HasControl c) (advanceLoop n) := by
  induction n with
  | zero => exact keeps_pure ()
  | succ n ih => exact fun s => Keeps.whenOp _ (keepsControl_advanceOne.bind fun _ => ih) s

theorem keepsControl_opEAdvance : Keeps (HasControl c) opEAdvance :=
  .bind keepsControl_upd fun _ => (keepsControl_advanceLoop 31).bind fun _ => keepsControl_upd

theorem keepsControl_drainOne : Keeps (HasControl c) drainOne :=
  .bind keepsControl_upd fun _ => keeps_getS.bind fun s => (keepsControl_opIdxDelete _).bind fun _ =>
    .bind keepsControl_upd fun _ => .bind keepsControl_upd fun _ => .bind keepsControl_upd fun _ =>
    keeps_getS.bind fun t => .whenOp _ (keepsControl_opIdxInsert _)

theorem keepsControl_drainLoop (n : Nat) : Keeps (HasControl c) (drainLoop n) := by
  induction n with
  | zero => exact keeps_pure ()
  | succ n ih => exact fun s => Keeps.whenOp _ (keepsControl_drainOne.bind fun _ => ih) s

theorem keepsControl_opEDrain : Keeps (HasControl c) opEDrain :=
  (keepsControl_drainLoop 31).bind fun _ => keepsControl_upd

theorem keepsControl_opEFinal : Keeps (HasControl c) (opEFinal P) :=
  keeps_getS.bind fun s => .bind (.whenOp _ keepsControl_flushBlock) fun _ => keepsControl_upd

theorem keepsControl_eStateOp (e : EState) : Keeps (HasControl c) (eStateOp P e) := by
  cases e with
  | init => exact keepsControl_opEInit
  | seedFill => exact keepsControl_opESeedFill
  | seedIndex => exact keepsControl_opESeedIndex
  | select => exact keepsControl_opESelect
  | block => exact keepsControl_opEBlock
  | advance => exact keepsControl_opEAdvance
  | drain => exact keepsControl_opEDrain
  | final => exact keepsControl_opEFinal
  | endRun => exact keeps_pure ()

theorem keepsControl_encIterate (n : Nat) : Keeps (HasControl c) (encIterate P n) := by
  induction n with
  | zero => exact keeps_diverge
  | succ n ih =>
    intro s hs
    unfold encIterate
    split_ifs
    · exact hs
    · exact ((keepsControl_eStateOp s.eState).bind fun _ => ih) s hs

theorem keepsControl_opEncRun : Keeps (HasControl c) (opEncRun P) :=
  .bind keepsControl_upd fun _ => keeps_getS.bind fun s => keepsControl_encIterate (encBound s)

/-! ### The decoder -/

theorem keepsControl_stopRun (r : StopCode) : Keeps (HasControl c) (stopRun r) := keepsControl_upd

theorem keepsControl_opDInit : Keeps (HasControl c) (opDInit P) :=
  .bind keepsControl_upd fun _ => .bind keepsControl_upd fun _ => .bind keepsControl_upd fun _ => keepsControl_upd

theorem keepsControl_opDCheck (bounded : Bool) : Keeps (HasControl c) (opDCheck bounded) := by
  intro s hs
  unfold opDCheck
  split_ifs
  · exact keepsControl_stopRun _ s hs
  · exact hs

theorem keepsControl_reloadFlags : Keeps (HasControl c) reloadFlags :=
  keeps_getS.bind fun s => (keeps_inByte _).bind fun b => .bind keepsControl_upd fun _ => keepsControl_upd

theorem keepsControl_opDFlag : Keeps (HasControl c) opDFlag :=
  have hselect : Keeps (HasControl c) selectByFlag := keepsControl_upd
  .bind keepsControl_upd fun _ => keeps_getS.bind fun s =>
    .ite (.ite (keepsControl_stopRun _) (keepsControl_reloadFlags.bind fun _ => hselect)) hselect

theorem keepsControl_opDLit : Keeps (HasControl c) (opDLit P) :=
  keeps_getS.bind fun s => .ite (keepsControl_stopRun _) <|
    keepsControl_nextByte.bind fun b => (keepsControl_emit P b).bind fun _ => (keepsControl_opWinPut b).bind fun _ =>
    keepsControl_upd

theorem keepsControl_opDMatch : Keeps (HasControl c) opDMatch :=
  keeps_getS.bind fun s => .ite (keepsControl_stopRun _) <| .ite (keepsControl_stopRun _) <|
    (keeps_inByte _).bind fun b0 => .bind keepsControl_upd fun _ =>
    (keeps_inByte _).bind fun b1 => .bind keepsControl_upd fun _ =>
    .bind keepsControl_upd fun _ => .bind keepsControl_upd fun _ => .bind keepsControl_upd fun _ => keepsControl_upd

theorem keepsControl_copyOne : Keeps (HasControl c) (copyOne P) :=
  keeps_getS.bind fun s => (keeps_readText _).bind fun b => (keepsControl_emit P b).bind fun _ =>
    (keepsControl_opWinPut b).bind fun _ => keepsControl_upd

theorem keepsControl_copyLoop (bounded : Bool) (n : Nat) : Keeps (HasControl c) (copyLoop P bounded n) := by
  induction n with
  | zero => exact keeps_pure ()
  | succ n ih => exact fun s => Keeps.whenOp _ (keepsControl_copyOne.bind fun _ => ih) s

theorem keepsControl_opDCopy (bounded : Bool) : Keeps (HasControl c) (opDCopy P bounded) :=
  keeps_getS.bind fun s => (keepsControl_copyLoop bounded _).bind fun _ => keepsControl_upd

theorem keepsControl_dStateOp (bounded : Bool) (d : DState) : Keeps (HasControl c) (dStateOp P bounded d) := by
  cases d with
  | init => exact keepsControl_opDInit
  | check => exact keepsControl_opDCheck bounded
  | flag => exact keepsControl_opDFlag
  | lit => exact keepsControl_opDLit
  | matchTok => exact keepsControl_opDMatch
  | copy => exact keepsControl_opDCopy bounded
  | stop => exact keeps_pure ()

theorem keepsControl_decIterate (bounded : Bool) (n : Nat) : Keeps (HasControl c) (decIterate P bounded n) := by
  induction n with
  | zero => exact keeps_diverge
  | succ n ih =>
    intro s hs
    unfold decIterate
    split_ifs
    · exact hs
    · exact ((keepsControl_dStateOp bounded s.dState).bind fun _ => ih) s hs

theorem keepsControl_opDecRun (bounded : Bool) : Keeps (HasControl c) (opDecRun P bounded) :=
  .bind keepsControl_upd fun _ => keeps_getS.bind fun s => keepsControl_decIterate bounded (decBound s)

/-! ### The commands (R151 to R157) -/

theorem keepsControl_opHdrCheck : Keeps (HasControl c) opHdrCheck :=
  keeps_getS.bind fun s => .ite (keeps_pure false) <|
    (keeps_inByte 0).bind fun b0 => (keeps_inByte 1).bind fun b1 => (keeps_inByte 2).bind fun b2 =>
    (keeps_inByte 3).bind fun b3 => .bind keepsControl_upd fun _ => keeps_pure _

theorem keepsControl_writeOut (a : Nat) (v : Byte) : Keeps (HasControl c) (writeOut a v) := keepsControl_upd

theorem keepsControl_backPatch : Keeps (HasControl c) backPatch :=
  keeps_getS.bind fun _ => .ite (keeps_raise _) <|
    (keepsControl_writeOut 0 _).bind fun _ => (keepsControl_writeOut 1 _).bind fun _ =>
    (keepsControl_writeOut 2 _).bind fun _ => keepsControl_writeOut 3 _

theorem keepsControl_opCompress : Keeps (HasControl c) (opCompress P) :=
  keepsControl_opEncRun.bind fun _ => keepsControl_upd

theorem keepsControl_opCompressHdr : Keeps (HasControl c) (opCompressHdr P) :=
  .bind keepsControl_upd fun _ => keepsControl_opEncRun.bind fun _ =>
    keepsControl_backPatch.bind fun _ => keepsControl_upd

theorem keepsControl_opDecompress : Keeps (HasControl c) (opDecompress P) :=
  have hguard : Keeps (HasControl c) (opGuard P) := keeps_getS.bind fun _ => keeps_pure _
  hguard.bind fun _ => .ite keepsControl_upd (keepsControl_opDecRun true)

theorem keepsControl_opDecompressAllHdr : Keeps (HasControl c) (opDecompressAllHdr P) :=
  keepsControl_opHdrCheck.bind fun _ => .ite (keepsControl_opDecRun false) keepsControl_upd

/-- A command ends, early or not, with the control part it began with. -/
theorem keepsControl_commandOp (cmd : BitVec 3) : Keeps (HasControl c) (commandOp P cmd) := by
  unfold commandOp
  split
  · exact keepsControl_opCompress
  · exact keepsControl_opCompressHdr
  · exact keepsControl_opDecompress
  · exact keepsControl_opDecRun false
  · exact keepsControl_opDecompressAllHdr
  · exact keeps_raise _

end Sys2Proof.Machine
end

section
/-! PROOFS. `START` (44_commands_framing.md R150). -/

namespace Sys2Proof.Machine

/-! ### The command `CMD` decodes to (R71, R72) -/

/-- A value of `CMD`, as a byte, is the row of R71 or R72 for it. -/
theorem decode_cmd_setWidth (c : BitVec 3) : decode .cmd [c.setWidth 8] = .ok (decodeCmd c, []) := by
  have hwide : (c.setWidth 8).toNat < 8 := by
    rw [BitVec.toNat_setWidth_of_le (by decide)]
    exact c.isLt
  have hback : (c.setWidth 8).setWidth 3 = c := BitVec.setWidth_setWidth_of_le c (by decide)
  rw [decode, if_pos hwide, hback]

/-- The row of R71 or R72 means the case of R150 for its code. -/
theorem exec_decodeCmd (c : BitVec 3) (s : State) : exec (decodeCmd c) s = finish (commandOp Config.params c) s := by
  have hc : c.toNat < 8 := c.isLt
  unfold decodeCmd commandOp
  interval_cases c.toNat <;> rfl

/-! ### `START` around the command -/

theorem startIgnored_eq_true {s : State} (h : s.top = .busy ∨ s.top = .fault) : startIgnored s = true := by
  rcases h with h | h <;> simp [startIgnored, h]

theorem opStart_of_ignored {P : Config.Params} {s : State} (h : s.top = .busy ∨ s.top = .fault) :
    opStart P s = .ok () s := by
  simp only [opStart, startIgnored_eq_true h, if_true]

/-- A command that ends with no early end leaves `START` to set `DONE`. -/
theorem opStart_of_ok {P : Config.Params} {s t : State} (h : s.top = .idle ∨ s.top = .done)
    (hcmd : commandOp P s.cmd (startPrologue s) = .ok () t) : opStart P s = .ok () { t with top := .done } := by
  simp only [opStart, startIgnored_eq_false h, Bool.false_eq_true, if_false, upd_bind]
  exact bind_of_ok hcmd

/-- A command run by `START` that raises nothing is still `BUSY` at its end: only the fault entry and `START` itself write
`TOP`. -/
theorem commandOp_top_busy {P : Config.Params} {s t : State}
    (hcmd : commandOp P s.cmd (startPrologue s) = .ok () t) : t.top = .busy :=
  ((keepsControl_commandOp s.cmd).of_ok rfl hcmd).top_eq

/-- Settles O49: the state the command leaves is `FAULT` exactly where it raised, as a command that does not is `BUSY` to
its end. -/
theorem startRunsTheDecodedCommand : Obligations.StartRunsTheDecodedCommand := by
  refine ⟨fun s hignored => finish_of_ok (opStart_of_ignored hignored), fun s u i htop hdecode hexec => ?_⟩
  obtain rfl : decodeCmd s.cmd = i := by
    rw [decode_cmd_setWidth] at hdecode
    injection hdecode with h
    exact congrArg Prod.fst h
  change exec _ (startPrologue s) = _ at hexec
  rw [exec_decodeCmd] at hexec
  rcases finish_eq_next hexec with ⟨⟨⟩, hok⟩ | ⟨c, t, hraise, rfl⟩
  · have hbusy : u.top = .busy := commandOp_top_busy hok
    rw [if_neg (by simp [hbusy])]
    exact finish_of_ok (opStart_of_ok htop hok)
  · rw [if_pos (takeFault_top c t)]
    exact finish_of_raise (opStart_of_error htop hraise)

end Sys2Proof.Machine
end

section
/-! PROOFS. `FAULT` until `RESET` (60_exceptions.md R173, R174). -/

namespace Sys2Proof.Machine

variable {P : Config.Params} {a : HostAct} {s t : State} {rest : List HostAct}

/-! ### What is ignored in `FAULT` -/

theorem exec_start_of_ignored (h : s.top = .busy ∨ s.top = .fault) : exec .start s = .next s :=
  finish_of_ok (opStart_of_ignored h)

theorem opStartStepped_of_ignored (h : s.top = .busy ∨ s.top = .fault) : opStartStepped P s = .ok () s := by
  simp only [opStartStepped, startIgnored_eq_true h, if_true]

theorem startStepped_of_ignored (h : s.top = .busy ∨ s.top = .fault) : startStepped P s = .next s :=
  finish_of_ok (opStartStepped_of_ignored h)

theorem engineStep_of_fault {run : Instr → State → Host.Outcome State Fault Refusal} (h : s.top = .fault) :
    engineStep run s = .next s := by
  simp only [engineStep, h]

/-! ### Host writes (R36) -/

/-- What the host can write is neither `TOP` nor `FCODE`. -/
theorem hostWrite_keeps_status (h : hostWrite P a s = some t) : t.top = s.top ∧ t.fcode = s.fcode := by
  cases a with
  | writeCmd | writeMaxOut | writeInLen | writeIn =>
    cases h
    exact ⟨rfl, rfl⟩
  | start | startStepped | reset | wait | pass => cases h

/-- A move that writes nothing of the host's leaves an engine in `FAULT` as it is. -/
theorem hostStep_of_fault_of_none (hfault : s.top = .fault) (h : hostWrite P a s = none) :
    hostStep P a s = .next s := by
  simp only [hostStep, hfault, h]

theorem hostStep_of_fault_of_some (hfault : s.top = .fault) (h : hostWrite P a s = some t) :
    hostStep P a s = .next t := by
  simp only [hostStep, hfault, h]

theorem hostStep_keeps_status_of_fault (hfault : s.top = .fault) (h : hostStep P a s = .next t) :
    t.top = s.top ∧ t.fcode = s.fcode := by
  cases hwrite : hostWrite P a s with
  | none =>
    rw [hostStep_of_fault_of_none hfault hwrite] at h
    cases h
    exact ⟨rfl, rfl⟩
  | some u =>
    rw [hostStep_of_fault_of_some hfault hwrite] at h
    cases h
    exact hostWrite_keeps_status hwrite

/-! ### Steps in `FAULT` -/

/-- With no move left nothing executes (log 8). -/
theorem step_of_fault_nil (hfault : s.top = .fault) (hhost : s.host = []) : step s = .fault .stuckInFault := by
  simp only [step, stepOf, hhost, if_pos hfault]

/-- Of the host's moves other than `RESET` all that is heeded in `FAULT` is a host write. -/
theorem step_of_fault_cons (hfault : s.top = .fault) (hhost : s.host = a :: rest) (ha : a ≠ .reset) :
    step s = hostStep Config.params a { s with host := rest } := by
  have hrest : State.top { s with host := rest } = .fault := hfault
  simp only [step, stepOf, hhost]
  cases a with
  | writeCmd | writeMaxOut | writeInLen | writeIn => rfl
  | reset => exact absurd rfl ha
  | start => rw [hostStep_of_fault_of_none hrest rfl]; exact exec_start_of_ignored (.inr hrest)
  | startStepped => rw [hostStep_of_fault_of_none hrest rfl]; exact startStepped_of_ignored (.inr hrest)
  | pass => rw [hostStep_of_fault_of_none hrest rfl]; exact engineStep_of_fault hrest
  | wait => rw [hostStep_of_fault_of_none hrest rfl]; exact if_neg (by simp [hfault])

/-- The host's `RESET` is taken in every state (R190). -/
theorem step_of_reset (hhost : s.host = .reset :: rest) : step s = .next (resetState { s with host := rest }) := by
  simp only [step, stepOf, hhost]
  exact finish_of_ok (upd_apply _ _)

/-- Without a `RESET` a step in `FAULT` writes neither `TOP` nor `FCODE`. -/
theorem step_keeps_status_of_fault (hfault : s.top = .fault) (hreset : ∀ rest, s.host ≠ .reset :: rest)
    (h : step s = .next t) : t.top = s.top ∧ t.fcode = s.fcode := by
  cases hhost : s.host with
  | nil =>
    rw [step_of_fault_nil hfault hhost] at h
    cases h
  | cons a rest =>
    have ha : a ≠ .reset := fun ha => hreset rest (ha ▸ hhost)
    rw [step_of_fault_cons hfault hhost ha] at h
    exact hostStep_keeps_status_of_fault (s := { s with host := rest }) hfault h

/-- Settles O7: `START` is ignored in `FAULT`, and of the host's moves only `RESET` writes `TOP` or `FCODE` there. -/
theorem faultIsSticky : Obligations.FaultIsSticky := by
  refine fun s hfault => ⟨exec_start_of_ignored (.inr hfault), fun t hreset h => ?_, fun rest hhost => ?_⟩
  · obtain ⟨htop, hfcode⟩ := step_keeps_status_of_fault hfault hreset h
    exact ⟨htop.trans hfault, hfcode⟩
  · exact ⟨_, step_of_reset hhost, resetState_top _, resetState_fcode _⟩

end Sys2Proof.Machine
end

section
/-! PROOFS. `RESET` from any state (70_reset_and_hazards.md R190). -/

namespace Sys2Proof.Machine

/-- `RESET` completes in every state: it raises nothing and reads no `TOP` first. -/
theorem exec_reset (s : State) : exec .reset s = .next (resetState s) := finish_of_ok (upd_apply resetState s)

/-- The three fields of `STATUS` (R35) of an idle engine with no stop reason but `complete` and no fault code are zeros. -/
theorem status_eq_zero {s : State} (htop : s.top = .idle) (hstop : s.stop = .complete) (hfcode : s.fcode = none) :
    s.status = 0 := by
  rw [State.status, htop, hstop, hfcode]
  rfl

@[simp] theorem resetState_status (s : State) : (resetState s).status = 0 :=
  status_eq_zero (resetState_top s) (resetState_stop s) (resetState_fcode s)

/-- Settles O6: `RESET` is one update, and each register named is one it writes. -/
theorem resetFromAnyState : Obligations.ResetFromAnyState :=
  fun s => ⟨resetState s, exec_reset s, resetState_top s, resetState_stop s, resetState_fcode s, resetState_status s,
    resetState_outLen s, resetState_cmd s, resetState_maxOut s, resetState_inLen s⟩

end Sys2Proof.Machine
end
